-- ==== Sys2Proof/Word.lean ====
section
/-! DEFINITION. The word types of the block: request and response words, memory bytes, and the two
floating-point bit patterns (spec 00_scope.md R7, R9, R10). -/

namespace Sys2Proof

/-- One 8-bit byte of host memory (20_memory.md R40). -/
abbrev Byte := BitVec 8

/-- One 32-bit word of a request or of a response (30_encoding.md R60). -/
abbrev Word := BitVec 32

/-- A binary16 bit pattern: sign bit 15, exponent bits 14 to 10, mantissa bits 9 to 0 (00_scope.md R9). -/
abbrev Half := BitVec 16

/-- A binary32 bit pattern: sign bit 31, exponent bits 30 to 23, mantissa bits 22 to 0 (00_scope.md R10). -/
abbrev Single := BitVec 32

end Sys2Proof
end

