-- ==== Sys2Proof/Config.lean ====
section
/-! DEFINITION. What an implementation fixes (spec 00_scope.md R6) and the free values the spec leaves open
(40_scalar_conversion.md R84, R85; 70_reset_and_hazards.md R161). -/

namespace Sys2Proof

/-- The byte order `ENDIAN` of buffer elements in host memory (00_scope.md R6, 20_memory.md R42). -/
inductive Endian where
  | little
  | big
deriving DecidableEq, Repr

/-- Which NaN map an implementation uses in one direction (00_scope.md R6, `H2S_NAN` and `S2H_NAN`):
the default that the rule gives, or any other map under the rule's constraints (DESIGN CHOICE, log 2). -/
inductive NanMap where
  /-- the default map of 40_scalar_conversion.md R84 or R85 -/
  | ruleDefault
  /-- an unknown map under the constraints of R84 or R85: its payload is a free value -/
  | free
deriving DecidableEq, Repr

/-- The parameters of 00_scope.md R6 that an implementation fixes. They stand in `State.params`, which no step
changes, so that a statement about every state is a statement about every value of them (DESIGN CHOICE, log 1). -/
structure Params where
  /-- `ADDR_WIDTH / 32`: how many request words one bulk operand takes (30_encoding.md R64) -/
  addrWords : Nat := 2
  /-- `BATCH`: elements of one SIMD batch (41_bulk_simd_conversion.md R114) -/
  batch : Nat := 16
  /-- `ENDIAN` (20_memory.md R42) -/
  endian : Endian := .little
  /-- `H2S_MANY_GATED` (41_bulk_simd_conversion.md R119) -/
  h2sManyGated : Bool := false
  /-- `H2S_NAN` (40_scalar_conversion.md R84) -/
  h2sNan : NanMap := .ruleDefault
  /-- `S2H_NAN` (40_scalar_conversion.md R85) -/
  s2hNan : NanMap := .ruleDefault
deriving DecidableEq, Repr

/-- `ADDR_WIDTH`, the width in bits of a bulk operand, a multiple of 32 (00_scope.md R6). -/
def Params.addrWidth (p : Params) : Nat := 32 * p.addrWords

/-- `2^ADDR_WIDTH`, the first number that is no address (20_memory.md R40). -/
def Params.addrLimit (p : Params) : Nat := 2 ^ p.addrWidth

/-- The range of the parameters: a batch of at least one element (00_scope.md R6), and an address width above zero.
R6 says only that `ADDR_WIDTH` is a multiple of 32, and the lower bound is the model's own (DESIGN CHOICE, log 24). -/
def Params.valid (p : Params) : Bool := decide (1 ≤ p.addrWords) && decide (1 ≤ p.batch)

/-- FREE VALUE: the payload that an implementation with a map other than the default gives the binary32 NaN
of a binary16 NaN (40_scalar_conversion.md R84, DESIGN CHOICE, log 2). Nothing constrains it. -/
opaque Config.h2sNanPayload : Half → BitVec 23

/-- FREE VALUE: the payload that an implementation with a map other than the default gives the binary16 NaN
of a binary32 NaN (40_scalar_conversion.md R85, DESIGN CHOICE, log 2). Nothing constrains it. -/
opaque Config.s2hNanPayload : Single → BitVec 10

/-- FREE VALUE: the byte of draw number `k`, for a destination byte of a bulk request that a reset abandons
(70_reset_and_hazards.md R161, DESIGN CHOICE, log 10). Nothing constrains it. -/
opaque Config.freeByte : Nat → Byte

end Sys2Proof
end

