-- ==== Sys2Proof/Syntax.lean ====
section
/-! DEFINITION. The four operations of the block (spec 30_encoding.md R62, R69), one constructor per row of
spec/opcode_table.json. -/

namespace Sys2Proof

/-- One request: an operation and its operands (00_scope.md R3). Bulk operands are unsigned numbers of
`ADDR_WIDTH` bits, which is a parameter, so they are held as numbers and `Instr.wellFormed` bounds them
(30_encoding.md R64, DESIGN CHOICE, log 19). -/
inductive Instr where
  /-- `h2s <h>`: convert one binary16 pattern to binary32 (40_scalar_conversion.md R86) -/
  | h2s (h : Half)
  /-- `s2h <x>`: convert one binary32 pattern to binary16 (40_scalar_conversion.md R90) -/
  | s2h (x : Single)
  /-- `h2s.many <dst>, <dst_len>, <src>, <src_len>` (41_bulk_simd_conversion.md R116) -/
  | h2sMany (dst dstLen src srcLen : Nat)
  /-- `s2h.many <dst>, <dst_len>, <src>, <src_len>` (41_bulk_simd_conversion.md R117) -/
  | s2hMany (dst dstLen src srcLen : Nat)
deriving DecidableEq, Repr

end Sys2Proof
end

