-- ==== Sys2Proof/WellFormed.lean ====
section
/-! DEFINITION. Which requests an encoding exists for: each bulk operand fits `ADDR_WIDTH` bits
(spec 30_encoding.md R64, R68). Scalar operands fit by their type. -/

namespace Sys2Proof

/-- A bulk operand that the assembler of 30_encoding.md R68 accepts: below `2^ADDR_WIDTH`. -/
def Params.fitsOperand (p : Params) (v : Nat) : Bool := decide (v < p.addrLimit)

/-- The request can be encoded: every operand lies in the range its words can hold (30_encoding.md R64, R68).
Alignment, range and overlap are memory preconditions and no encoding checks (R64). -/
def Instr.wellFormed (p : Params) : Instr → Bool
  | .h2s _ => true
  | .s2h _ => true
  | .h2sMany dst dstLen src srcLen =>
    p.fitsOperand dst && p.fitsOperand dstLen && p.fitsOperand src && p.fitsOperand srcLen
  | .s2hMany dst dstLen src srcLen =>
    p.fitsOperand dst && p.fitsOperand dstLen && p.fitsOperand src && p.fitsOperand srcLen

end Sys2Proof
end

