-- ==== Sys2Proof/Decode.lean ====
section
/-! DEFINITION. The request decoder, total on every list of words, and after it the encoder
(spec 30_encoding.md R60 to R67). -/

namespace Sys2Proof

/-- The four values of `OP` that are not reserved (30_encoding.md R62). -/
inductive Opcode where
  | h2s
  | s2h
  | h2sMany
  | s2hMany
deriving DecidableEq, Repr

/-- The header word `W0` of an operation (30_encoding.md R61, R62). -/
def Opcode.header : Opcode → Word
  | .h2s => 0x00000001
  | .s2h => 0x00000002
  | .h2sMany => 0x00000003
  | .s2hMany => 0x00000004

/-- The field `OP`, bits 3 to 0 of the header (30_encoding.md R61). -/
def headerOp (w0 : Word) : BitVec 4 := w0.extractLsb' 0 4

/-- The reserved field, bits 31 to 4 of the header, which must be 0 (30_encoding.md R61). -/
def headerReserved (w0 : Word) : BitVec 28 := w0.extractLsb' 4 28

/-- The operation a header word selects, or none where the header is reserved (30_encoding.md R62, R67). -/
def Opcode.ofHeader (w0 : Word) : Option Opcode :=
  if headerReserved w0 ≠ 0 then none
  else match (headerOp w0).toNat with
    | 1 => some .h2s
    | 2 => some .s2h
    | 3 => some .h2sMany
    | 4 => some .s2hMany
    | _ => none

/-- How many words the request with this operation has, its header included (30_encoding.md R60, R66). -/
def Opcode.requestWords (p : Params) : Opcode → Nat
  | .h2s => 2
  | .s2h => 2
  | .h2sMany => 1 + 4 * p.addrWords
  | .s2hMany => 1 + 4 * p.addrWords

/-- What the decoder finds at the front of a requester's words. -/
inductive Decoded where
  /-- a request, and the words after it -/
  | request (i : Instr) (rest : List Word)
  /-- a reserved header: the request is that one word (30_encoding.md R66, R67) -/
  | reserved (rest : List Word)
  /-- the words end before the request does: not a request (30_encoding.md R60, DESIGN CHOICE, log 12) -/
  | truncated
deriving DecidableEq, Repr

/-- The number that words sent least significant first stand for (30_encoding.md R64). -/
def joinWords : List Word → Nat
  | [] => 0
  | w :: ws => w.toNat + 2 ^ 32 * joinWords ws

/-- The `k` words, least significant first, of a number (30_encoding.md R64). -/
def splitWords : Nat → Nat → List Word
  | 0, _ => []
  | k + 1, v => BitVec.ofNat 32 v :: splitWords k (v / 2 ^ 32)

/-- Bulk operand number `j` of four, each of `k` words (30_encoding.md R64). -/
def operandAt (k j : Nat) (ws : List Word) : Nat := joinWords ((ws.drop (j * k)).take k)

/-- A scalar request's operand word, after its header (30_encoding.md R63). -/
def decodeScalar (mk : Word → Instr) : List Word → Decoded
  | [] => .truncated
  | w1 :: rest => .request (mk w1) rest

/-- A bulk request's four operands, after its header: DST, DST_LEN, SRC, SRC_LEN (30_encoding.md R64). -/
def decodeBulk (p : Params) (mk : Nat → Nat → Nat → Nat → Instr) (ws : List Word) : Decoded :=
  let k := p.addrWords
  if ws.length < 4 * k then .truncated
  else .request (mk (operandAt k 0 ws) (operandAt k 1 ws) (operandAt k 2 ws) (operandAt k 3 ws)) (ws.drop (4 * k))

/-- Decode the request at the front of a list of words (30_encoding.md R62 to R67). -/
def decode (p : Params) : List Word → Decoded
  | [] => .truncated
  | w0 :: ws =>
    match Opcode.ofHeader w0 with
    | none => .reserved ws
    | some .h2s => decodeScalar (fun w1 => .h2s (w1.setWidth 16)) ws
    | some .s2h => decodeScalar (fun w1 => .s2h w1) ws
    | some .h2sMany => decodeBulk p .h2sMany ws
    | some .s2hMany => decodeBulk p .s2hMany ws

/-- The operation of a request. -/
def Instr.opcode : Instr → Opcode
  | .h2s _ => .h2s
  | .s2h _ => .s2h
  | .h2sMany _ _ _ _ => .h2sMany
  | .s2hMany _ _ _ _ => .s2hMany

/-- The operand words of a request (30_encoding.md R63, R64); for `H2S` the ignored half is sent as 0. -/
def Instr.operandWords (p : Params) : Instr → List Word
  | .h2s h => [h.setWidth 32]
  | .s2h x => [x]
  | .h2sMany dst dstLen src srcLen =>
    splitWords p.addrWords dst ++ splitWords p.addrWords dstLen ++ splitWords p.addrWords src ++ splitWords p.addrWords srcLen
  | .s2hMany dst dstLen src srcLen =>
    splitWords p.addrWords dst ++ splitWords p.addrWords dstLen ++ splitWords p.addrWords src ++ splitWords p.addrWords srcLen

/-- The words of a request: the header, then the operands (30_encoding.md R60, R68). -/
def encode (p : Params) (i : Instr) : List Word := i.opcode.header :: i.operandWords p

/-- The operation a mnemonic names, in either case of its letters (30_encoding.md R68). -/
def Opcode.ofMnemonic (name : List Char) : Option Opcode :=
  let low := name.map Char.toLower
  if low = ['h', '2', 's'] then some .h2s
  else if low = ['s', '2', 'h'] then some .s2h
  else if low = ['h', '2', 's', '.', 'm', 'a', 'n', 'y'] then some .h2sMany
  else if low = ['s', '2', 'h', '.', 'm', 'a', 'n', 'y'] then some .s2hMany
  else none

/-- The request an assembler makes of an operation and its literals, or none where it refuses: another number of
operands, or one that is too large (30_encoding.md R68). -/
def assemble (p : Params) (op : Opcode) (operands : List Nat) : Option Instr :=
  match op, operands with
  | .h2s, [h] => if h < 2 ^ 16 then some (.h2s (BitVec.ofNat 16 h)) else none
  | .s2h, [x] => if x < 2 ^ 32 then some (.s2h (BitVec.ofNat 32 x)) else none
  | .h2sMany, [dst, dstLen, src, srcLen] =>
    if [dst, dstLen, src, srcLen].all p.fitsOperand then some (.h2sMany dst dstLen src srcLen) else none
  | .s2hMany, [dst, dstLen, src, srcLen] =>
    if [dst, dstLen, src, srcLen].all p.fitsOperand then some (.s2hMany dst dstLen src srcLen) else none
  | _, _ => none

/-- The words of the request whose bits, as spec/opcode_table.json numbers them, are `w`: bit 0 is the least
significant bit of the header, every bit at or above `nbits` is 0, and there are as many words as the header
calls for (30_encoding.md R66; a reserved header is one word). -/
def tableWords (p : Params) (nbits w : Nat) : List Word :=
  let v := w % 2 ^ nbits
  match Opcode.ofHeader (BitVec.ofNat 32 v) with
  | none => splitWords 1 v
  | some op => splitWords (op.requestWords p) v

/-- The instruction the decoder reads from the bits of a row of spec/opcode_table.json, at the default
parameters of 00_scope.md R6. -/
def decodeTableWord (nbits w : Nat) : Option Instr :=
  match decode ({} : Params) (tableWords {} nbits w) with
  | .request i _ => some i
  | .reserved _ => none
  | .truncated => none

end Sys2Proof
end

