-- ==== Sys2Proof/Machine/State.lean ====
section
/-! DEFINITION. The state of the block and of the host around it, as plain data (spec 10_state.md, 20_memory.md R40
to R51, 60_exceptions.md R149, 70_reset_and_hazards.md R160 to R163), the fault and refusal reasons, and reset. -/

namespace Sys2Proof.Machine

/-- Host memory: address and byte, addresses strictly rising, no byte equal to `unlistedByte`
(20_memory.md R40; the form is `Memory.wf`). It is ordinary memory: a read returns the last value written and has no
side effect. HOST DUTY (20_memory.md R45): no buffer lies on a device whose registers have read or write side
effects. -/
abbrev Memory := List Host.Cell

/-- A range of bytes: `size` bytes from address `base` (20_memory.md R41). -/
structure Span where
  base : Nat
  size : Nat
deriving DecidableEq, Repr

/-- The two bulk operations (41_bulk_simd_conversion.md R112). -/
inductive BulkOp where
  | h2sMany
  | s2hMany
deriving DecidableEq, Repr

/-- One bulk request's operation and operands (30_encoding.md R64). -/
structure Transfer where
  op : BulkOp
  dst : Nat
  dstLen : Nat
  src : Nat
  srcLen : Nat
deriving DecidableEq, Repr

/-- A bulk request between its start step and its completion step, and whose it is
(20_memory.md R51, 60_exceptions.md R149). -/
structure Flight where
  requester : Nat
  transfer : Transfer
deriving DecidableEq, Repr

/-- A response and the requester it goes to: the words STATUS and RESULT (10_state.md R25, 30_encoding.md R65). -/
structure Response where
  requester : Nat
  status : Word
  result : Word
deriving DecidableEq, Repr

/-- One move of the host, an outside agent or the clock of the block's service (DESIGN CHOICE, log 5). -/
inductive Input where
  /-- requester `agent` sends these request words (30_encoding.md R60) -/
  | send (agent : Nat) (words : List Word)
  /-- the block answers the outstanding bulk request of `agent` now (60_exceptions.md R149, completion step) -/
  | answer (agent : Nat)
  /-- the host drives CAP (10_state.md R24, 70_reset_and_hazards.md R162) -/
  | driveCap (level : Bool)
  /-- host agent `agent` writes these bytes at `addr` on its own (20_memory.md R51) -/
  | hostWrite (agent : Nat) (addr : Nat) (bytes : List Byte)
  /-- host agent `agent` reads `len` bytes at `addr` on its own (20_memory.md R51) -/
  | hostRead (agent : Nat) (addr : Nat) (len : Nat)
  /-- the host says which memory it does not admit (20_memory.md R47) -/
  | mapMemory (unadmitted : List Span)
  /-- the block is reset (70_reset_and_hazards.md R160, R161) -/
  | resetBlock
deriving DecidableEq, Repr

/-- Why the machine stops. Every one is a host duty that was broken (60_exceptions.md R144). Memory that the host does
not admit is no fault: the access is stuck instead (20_memory.md R47, 60_exceptions.md R140). -/
inductive Fault where
  /-- A request with a reserved header was answered with status 2; raised by every step after that one
  (60_exceptions.md R142, R144). SAFE. -/
  | illegalRequest
  /-- Raised by the start of `H2S.MANY` and `S2H.MANY`: a base is no multiple of its element size
  (20_memory.md R43). SAFE. -/
  | misalignedBuffer
  /-- Raised by the start of `H2S.MANY` and `S2H.MANY`: a declared range passes `2^ADDR_WIDTH`
  (20_memory.md R46). SAFE. -/
  | addressWrap
  /-- Raised by the start of `H2S.MANY` and `S2H.MANY`: the declared ranges share a byte
  (20_memory.md R48). SAFE. -/
  | overlappingBuffers
  /-- Raised by a host access, or by the start of a bulk request, that conflicts with a bulk request in flight
  (20_memory.md R51, DEDUCED, log 7). SAFE. -/
  | bufferRace
  /-- Raised by a host access outside the address space of 20_memory.md R40 (DESIGN CHOICE, log 14). SAFE. -/
  | noSuchAddress
deriving DecidableEq, Repr

/-- Why the model gives no meaning. -/
inductive Refusal where
  /-- An instruction with no meaning yet, by its mnemonic; raised by no arm now. SAFE. -/
  | notModelled (mnemonic : String)
  /-- Raised when a requester's words end before the request their header calls for does: they are no request
  (30_encoding.md R60, R66, DESIGN CHOICE, log 12). SAFE. -/
  | truncatedRequest
deriving DecidableEq, Repr

/-- The whole state: the block keeps nothing between requests (10_state.md R29), so this is the host memory it
reaches, the lines the host drives, the requests in flight, what the host will do next and what it was answered. -/
structure State where
  /-- the parameters of 00_scope.md R6; no step changes them (DESIGN CHOICE, log 1) -/
  params : Params
  /-- host memory (20_memory.md R40) -/
  mem : Memory
  /-- the ranges of memory the host does not admit (20_memory.md R47, DESIGN CHOICE, log 9) -/
  unadmitted : List Span
  /-- what the host drives on CAP now (10_state.md R24, DESIGN CHOICE, log 4) -/
  cap : Bool
  /-- the requester whose request is served (60_exceptions.md R149, DESIGN CHOICE, log 11) -/
  requester : Nat
  /-- the bulk requests in flight, oldest first (20_memory.md R51) -/
  flights : List Flight
  /-- what the host does next, in order (DESIGN CHOICE, log 5) -/
  inputs : List Input
  /-- the responses returned so far, newest first (10_state.md R25, DESIGN CHOICE, log 11) -/
  responses : List Response
  /-- how many free bytes were drawn (70_reset_and_hazards.md R161, DESIGN CHOICE, log 10); the model's own -/
  freeDraws : Nat
  /-- the fault recorded along with status 2 (60_exceptions.md R142, DEDUCED, log 8) -/
  recordedFault : Option Fault
deriving DecidableEq, Repr

/-- What a byte of memory that nothing has written reads as (DESIGN CHOICE, log 3). -/
def unlistedByte : Byte := 0

/-- Right after reset: nothing to initialise, no request in flight, no response held (10_state.md R31,
70_reset_and_hazards.md R160 to R163); the parameters at the defaults of 00_scope.md R6. -/
def State.reset : State where
  params := {}
  mem := []
  unadmitted := []
  cap := false
  requester := 0
  flights := []
  inputs := []
  responses := []
  freeDraws := 0
  recordedFault := none

end Sys2Proof.Machine
end

