-- ==== Sys2Proof/Machine/Flags.lean ====
section
/-! DEFINITION. The status of a response. The block has no flags and no condition codes, and keeps no IEEE 754
exception flags (spec 10_state.md R22, R26; 40_scalar_conversion.md R93): the status code is all an operation
reports beside its result (10_state.md R25). -/

namespace Sys2Proof.Machine

/-- The three statuses a response can have (10_state.md R25). -/
inductive Status where
  | ok
  | unsupportedHardware
  | illegalRequest
deriving DecidableEq, Repr

/-- The STATUS word of a status (10_state.md R25). -/
def Status.code : Status → Word
  | .ok => 0
  | .unsupportedHardware => 1
  | .illegalRequest => 2

/-- The status a STATUS word stands for; 3 and above are reserved and never produced (60_exceptions.md R143). -/
def Status.ofCode (w : Word) : Option Status :=
  match w.toNat with
  | 0 => some .ok
  | 1 => some .unsupportedHardware
  | 2 => some .illegalRequest
  | _ => none

end Sys2Proof.Machine
end

