-- ==== Sys2Proof/Machine/Ops.lean ====
section
/-! DEFINITION. The named operations over memory and over the state: bytes and elements of memory
(spec 00_scope.md R8, 20_memory.md R42), ranges (20_memory.md R46 to R51), the response (00_scope.md R8), and the
recorded fault (60_exceptions.md R142). The block has no trap entry and no trap return (60_exceptions.md R147):
a failure is a response or a model fault, so `State.respond` and `State.respondIllegal` are all there is to take. -/

namespace Sys2Proof.Machine

/-- The byte at an address. -/
def Memory.readByte : Memory → Nat → Byte
  | [], _ => unlistedByte
  | (k, b) :: m, a => if k = a then b else Memory.readByte m a

/-- Store one byte, keeping the canonical form: rising addresses, no entry that equals `unlistedByte`. -/
def Memory.writeByte : Memory → Nat → Byte → Memory
  | [], a, b => if b = unlistedByte then [] else [(a, b)]
  | (k, c) :: m, a, b =>
    if a < k then (if b = unlistedByte then (k, c) :: m else (a, b) :: (k, c) :: m)
    else if a = k then (if b = unlistedByte then m else (a, b) :: m)
    else (k, c) :: Memory.writeByte m a b

/-- The canonical form of memory: addresses strictly rising, no entry equal to what an unlisted address reads as. -/
abbrev Memory.wf (m : Memory) : Prop :=
  m.Pairwise (fun x y => x.1 < y.1) ∧ ∀ c ∈ m, c.2 ≠ unlistedByte

/-- The `n` bytes from an address, lowest address first. -/
def Memory.readBytes (m : Memory) (a : Nat) : Nat → List Byte
  | 0 => []
  | n + 1 => m.readByte a :: Memory.readBytes m (a + 1) n

/-- Store bytes from an address on, lowest address first. -/
def Memory.writeBytes (m : Memory) (a : Nat) : List Byte → Memory
  | [] => m
  | b :: bs => Memory.writeBytes (m.writeByte a b) (a + 1) bs

/-- Store `n` free bytes from an address on, drawn from number `k` on (70_reset_and_hazards.md R161, DESIGN CHOICE, log 10). -/
def Memory.writeFree (m : Memory) (a k : Nat) : Nat → Memory
  | 0 => m
  | n + 1 => Memory.writeFree (m.writeByte a (Config.freeByte k)) (a + 1) (k + 1) n

/-- The number that bytes stand for, least significant byte first. -/
def joinBytes : List Byte → Nat
  | [] => 0
  | b :: bs => b.toNat + 256 * joinBytes bs

/-- The `n` bytes of a number, least significant byte first. -/
def splitBytes : Nat → Nat → List Byte
  | 0, _ => []
  | n + 1, v => BitVec.ofNat 8 v :: splitBytes n (v / 256)

/-- `MemRead(addr, n)`: the `8n`-bit value at an address, in a byte order (00_scope.md R8, 20_memory.md R42).
20_memory.md R44 leaves mixed-size views of a buffer undefined. Here an element is its bytes, whatever the size they
were stored at (DESIGN CHOICE, log 23). -/
def Memory.read (e : Endian) (m : Memory) (a n : Nat) : Nat :=
  match e with
  | .little => joinBytes (m.readBytes a n)
  | .big => joinBytes (m.readBytes a n).reverse

/-- `MemWrite(addr, n, v)`: store the `8n`-bit value `v` at an address, in a byte order
(00_scope.md R8, 20_memory.md R42). -/
def Memory.write (e : Endian) (m : Memory) (a n v : Nat) : Memory :=
  match e with
  | .little => m.writeBytes a (splitBytes n v)
  | .big => m.writeBytes a (splitBytes n v).reverse

/-- The address lies in the range. -/
def Span.contains (r : Span) (a : Nat) : Bool := decide (r.base ≤ a) && decide (a < r.base + r.size)

/-- The ranges share a byte; an empty range shares none (41_bulk_simd_conversion.md R118). -/
def Span.overlaps (r q : Span) : Bool :=
  decide (0 < r.size) && decide (0 < q.size) && decide (r.base < q.base + q.size) && decide (q.base < r.base + r.size)

/-- The range lies in an address space of `limit` bytes: it does not wrap (20_memory.md R46). -/
def Span.fits (r : Span) (limit : Nat) : Bool := decide (r.base + r.size ≤ limit)

/-- The host admits every byte of the range (20_memory.md R47). -/
def State.admitsSpan (s : State) (r : Span) : Bool := s.unadmitted.all (fun q => !r.overlaps q)

/-- `respond(status, result)`: end the request of `s.requester` and return its response
(00_scope.md R8, 30_encoding.md R65). -/
def State.respond (s : State) (st : Status) (result : Word) : State :=
  { s with responses := ⟨s.requester, st.code, result⟩ :: s.responses }

/-- Answer a reserved header with `(2, 0)` and record `IllegalRequest` along with it
(30_encoding.md R67, 60_exceptions.md R142). -/
def State.respondIllegal (s : State) : State :=
  { s.respond .illegalRequest 0 with recordedFault := some .illegalRequest }

end Sys2Proof.Machine
end

