-- ==== Sys2Proof/Machine/Operands.lean ====
section
/-! DEFINITION. The operands: the fields of the two bit patterns (spec 00_scope.md R9, R10), and the buffers of a bulk
request, their element sizes, declared ranges and converted ranges (20_memory.md R41 to R49,
41_bulk_simd_conversion.md R111, R112). -/

namespace Sys2Proof

/-- `h[15]` (00_scope.md R9). -/
def Half.sign (h : Half) : BitVec 1 := h.extractLsb' 15 1

/-- `h[14:10]` (00_scope.md R9). -/
def Half.exp (h : Half) : BitVec 5 := h.extractLsb' 10 5

/-- `h[9:0]` (00_scope.md R9). -/
def Half.man (h : Half) : BitVec 10 := h.extractLsb' 0 10

/-- `x[31]` (00_scope.md R10). -/
def Single.sign (x : Single) : BitVec 1 := x.extractLsb' 31 1

/-- `x[30:23]` (00_scope.md R10). -/
def Single.exp (x : Single) : BitVec 8 := x.extractLsb' 23 8

/-- `x[22:0]` (00_scope.md R10). -/
def Single.man (x : Single) : BitVec 23 := x.extractLsb' 0 23

/-- The binary32 pattern with these fields (00_scope.md R10). -/
def Single.pack (sign : BitVec 1) (exp : BitVec 8) (man : BitVec 23) : Single := sign ++ exp ++ man

/-- The binary16 pattern with this sign bit and this number in bits 14 to 0 (00_scope.md R9). -/
def Half.signed (sign : BitVec 1) (low : Nat) : Half := sign ++ BitVec.ofNat 15 low

namespace Machine

/-- `sesize`, the bytes of a source element (41_bulk_simd_conversion.md R112). -/
def BulkOp.sesize : BulkOp → Nat
  | .h2sMany => 2
  | .s2hMany => 4

/-- `desize`, the bytes of a destination element (41_bulk_simd_conversion.md R112). -/
def BulkOp.desize : BulkOp → Nat
  | .h2sMany => 4
  | .s2hMany => 2

/-- Whether the operation needs CAP (41_bulk_simd_conversion.md R119). -/
def BulkOp.gated (p : Params) : BulkOp → Bool
  | .h2sMany => p.h2sManyGated
  | .s2hMany => true

/-- `n`, the element count (41_bulk_simd_conversion.md R111). -/
def Transfer.count (t : Transfer) : Nat := min t.srcLen t.dstLen

/-- The declared byte range of the source buffer (20_memory.md R41). -/
def Transfer.srcDeclared (t : Transfer) : Span := ⟨t.src, t.srcLen * t.op.sesize⟩

/-- The declared byte range of the destination buffer (20_memory.md R41). -/
def Transfer.dstDeclared (t : Transfer) : Span := ⟨t.dst, t.dstLen * t.op.desize⟩

/-- The bytes of source elements `0 .. n - 1` (20_memory.md R49, R51). -/
def Transfer.srcRead (t : Transfer) : Span := ⟨t.src, t.count * t.op.sesize⟩

/-- The bytes of destination elements `0 .. n - 1` (20_memory.md R49, R51). -/
def Transfer.dstWritten (t : Transfer) : Span := ⟨t.dst, t.count * t.op.desize⟩

/-- The address of source element `i` (20_memory.md R42). -/
def Transfer.srcAddr (t : Transfer) (i : Nat) : Nat := t.src + i * t.op.sesize

/-- The address of destination element `i` (20_memory.md R42). -/
def Transfer.dstAddr (t : Transfer) (i : Nat) : Nat := t.dst + i * t.op.desize

/-- The host admits every byte of the accessed prefixes (20_memory.md R47, 60_exceptions.md R145 item 6). -/
def State.admitsTransfer (s : State) (t : Transfer) : Bool := s.admitsSpan t.srcRead && s.admitsSpan t.dstWritten

/-- The request a transfer stands for. -/
def Transfer.instr (t : Transfer) : Instr :=
  match t.op with
  | .h2sMany => .h2sMany t.dst t.dstLen t.src t.srcLen
  | .s2hMany => .s2hMany t.dst t.dstLen t.src t.srcLen

end Machine

end Sys2Proof
end

