-- ==== Sys2Proof/Machine/Scalar.lean ====
section
/-! DEFINITION. The two scalar conversions and the scalar operations `H2S` and `S2H`
(spec 40_scalar_conversion.md R80 to R95). -/

namespace Sys2Proof.Machine

/-- A NaN's payload must not be zero (40_scalar_conversion.md R84 item 1, R85 item 2): a zero draw is replaced
by the quiet bit alone. Every payload that is not zero can be drawn. -/
def nonzeroPayload {w : Nat} (quiet drawn : BitVec w) : BitVec w := if drawn = 0 then quiet else drawn

/-- `H2S_NAN` (40_scalar_conversion.md R84): the default keeps the payload and sets the quiet bit. -/
def h2sNan (map : NanMap) (h : Half) : Single :=
  match map with
  | .ruleDefault => Single.pack h.sign 0xFF (0x400000 ||| (h.man.setWidth 23 <<< 13))
  | .free => Single.pack h.sign 0xFF (nonzeroPayload 0x400000 (Config.h2sNanPayload h))

/-- `S2H_NAN` (40_scalar_conversion.md R85): the default sets the quiet bit and keeps the top payload bits. -/
def s2hNan (map : NanMap) (x : Single) : Half :=
  match map with
  | .ruleDefault => Half.signed x.sign (0x7E00 ||| (x.man.toNat / 2 ^ 13))
  | .free => Half.signed x.sign (0x7C00 + (nonzeroPayload 0x200 (Config.s2hNanPayload x)).toNat)

/-- `h2s`, exact widening (40_scalar_conversion.md R81, R86). -/
def h2s (map : NanMap) (h : Half) : Single :=
  let s := h.sign
  let e := h.exp.toNat
  let m := h.man.toNat
  if e = 0x1F ∧ m ≠ 0 then h2sNan map h
  else if e = 0x1F then Single.pack s 0xFF 0
  else if e = 0 ∧ m = 0 then Single.pack s 0 0
  else if e = 0 then
    let p := Nat.log2 m
    Single.pack s (BitVec.ofNat 8 (p + 103)) (BitVec.ofNat 23 (m * 2 ^ (23 - p)))
  else Single.pack s (BitVec.ofNat 8 (e + 112)) (BitVec.ofNat 23 (m * 2 ^ 13))

/-- `v` without its `k` low bits, rounded to nearest, ties to even (00_scope.md R12, 40_scalar_conversion.md R90). -/
def roundShift (v k : Nat) : Nat :=
  let q := v / 2 ^ k
  let rem := v % 2 ^ k
  let half := 2 ^ (k - 1)
  if half < rem ∨ (rem = half ∧ q % 2 = 1) then q + 1 else q

/-- `s2h`, narrowing to nearest, ties to even (40_scalar_conversion.md R82, R90). In the normal range the number
rounded is exponent and mantissa together, so that a carry enters the exponent as the rule says. -/
def s2h (map : NanMap) (x : Single) : Half :=
  let s := x.sign
  let e := x.exp.toNat
  let m := x.man.toNat
  if e = 0xFF ∧ m ≠ 0 then s2hNan map x
  else if e = 0xFF then Half.signed s 0x7C00
  else if 143 ≤ e then Half.signed s 0x7C00
  else if 113 ≤ e then Half.signed s (roundShift ((e - 112) * 2 ^ 23 + m) 13)
  else if e = 0 then Half.signed s 0
  else Half.signed s (roundShift (2 ^ 23 + m) (126 - e))

/-- `H2S` (40_scalar_conversion.md R86): `respond(0, h2s(h))`. -/
def execH2s (h : Half) (s : State) : Host.Outcome State Fault Refusal :=
  .next (s.respond .ok (h2s s.params.h2sNan h))

/-- `S2H` (40_scalar_conversion.md R90): `respond(0, zext_32(s2h(x)))`. -/
def execS2h (x : Single) (s : State) : Host.Outcome State Fault Refusal :=
  .next (s.respond .ok ((s2h s.params.s2hNan x).setWidth 32))

end Sys2Proof.Machine
end

