-- ==== Sys2Proof/Machine/Bulk.lean ====
section
/-! DEFINITION. The two bulk operations (spec 41_bulk_simd_conversion.md R110 to R119). A bulk request is two steps
of its requester, a start step and a completion step (60_exceptions.md R149, DEDUCED, log 6). -/

namespace Sys2Proof.Machine

/-- The element function (41_bulk_simd_conversion.md R112), on the element's bits as a number. -/
def BulkOp.convert (p : Params) (op : BulkOp) (v : Nat) : Nat :=
  match op with
  | .h2sMany => (h2s p.h2sNan (BitVec.ofNat 16 v)).toNat
  | .s2hMany => (s2h p.s2hNan (BitVec.ofNat 32 v)).toNat

/-- Source element `i` (41_bulk_simd_conversion.md R112). -/
def Transfer.sourceElement (p : Params) (t : Transfer) (m : Memory) (i : Nat) : Nat :=
  m.read p.endian (t.srcAddr i) t.op.sesize

/-- The element function applied to source element `i`. -/
def Transfer.converted (p : Params) (t : Transfer) (m : Memory) (i : Nat) : Nat :=
  t.op.convert p (t.sourceElement p m i)

/-- Store destination element `i` (41_bulk_simd_conversion.md R112). -/
def Transfer.store (p : Params) (t : Transfer) (m : Memory) (i v : Nat) : Memory :=
  m.write p.endian (t.dstAddr i) t.op.desize v

/-- Store results into destination elements `i`, `i + 1`, … -/
def Transfer.storeFrom (p : Params) (t : Transfer) (m : Memory) (i : Nat) : List Nat → Memory
  | [] => m
  | v :: vs => Transfer.storeFrom p t (t.store p m i v) (i + 1) vs

/-- One full batch: every lane reads and converts its element, then every lane stores
(41_bulk_simd_conversion.md R114, R115). -/
def Transfer.runBatch (p : Params) (t : Transfer) (m : Memory) (first : Nat) : Memory :=
  t.storeFrom p m first ((List.range p.batch).map (fun lane => t.converted p m (first + lane)))

/-- The first `k` full batches (41_bulk_simd_conversion.md R114). -/
def Transfer.runBatches (p : Params) (t : Transfer) (m : Memory) : Nat → Memory
  | 0 => m
  | k + 1 => t.runBatch p (Transfer.runBatches p t m k) (k * p.batch)

/-- `k` tail elements from element `first` on, each through the scalar function
(41_bulk_simd_conversion.md R114). -/
def Transfer.runTail (p : Params) (t : Transfer) (m : Memory) (first : Nat) : Nat → Memory
  | 0 => m
  | k + 1 =>
    let m' := Transfer.runTail p t m first k
    t.store p m' (first + k) (t.converted p m' (first + k))

/-- Convert elements `0 .. n - 1`: full batches, then the tail (41_bulk_simd_conversion.md R110, R114, R118). -/
def Transfer.run (p : Params) (t : Transfer) (m : Memory) : Memory :=
  let n := t.count
  t.runTail p (t.runBatches p m (n / p.batch)) (n - n % p.batch) (n % p.batch)

/-- The first memory precondition that fails, in the order of 60_exceptions.md R145
(20_memory.md R43, R46, R48; 41_bulk_simd_conversion.md R118). -/
def Transfer.precondition (p : Params) (t : Transfer) : Option Fault :=
  if t.src % t.op.sesize ≠ 0 ∨ t.dst % t.op.desize ≠ 0 then some .misalignedBuffer
  else if ¬ t.srcDeclared.fits p.addrLimit ∨ ¬ t.dstDeclared.fits p.addrLimit then some .addressWrap
  else if t.srcDeclared.overlaps t.dstDeclared then some .overlappingBuffers
  else none

/-- Two bulk requests that may not be in flight together: one writes a byte the other reads or writes
(20_memory.md R51, DEDUCED, log 7). -/
def Transfer.conflicts (t u : Transfer) : Bool :=
  t.dstWritten.overlaps u.dstWritten || t.dstWritten.overlaps u.srcRead || t.srcRead.overlaps u.dstWritten

/-- The start step: the checks of 60_exceptions.md R145 in their order, with CAP sampled once here
(10_state.md R24); what passes them all is in flight. A request whose gate fails is answered here, and is never in
flight (DESIGN CHOICE, log 26). -/
def bulkStart (t : Transfer) (s : State) : Host.Outcome State Fault Refusal :=
  match t.precondition s.params with
  | some f => .fault f
  | none =>
    if t.op.gated s.params ∧ s.cap = false then .next (s.respond .unsupportedHardware 0)
    else if s.flights.any (fun f => f.transfer.conflicts t) then .fault .bufferRace
    else .next { s with flights := s.flights ++ [⟨s.requester, t⟩] }

/-- The completion step: the reads, the writes and the response, in one transition (20_memory.md R52,
60_exceptions.md R149). Every agent sees the writes from here on (DESIGN CHOICE, log 22). Where a byte the request
reaches is not admitted, the request is stuck: it stays in flight, touches nothing and has no response
(20_memory.md R47, 60_exceptions.md R140, log 9). -/
def bulkComplete (t : Transfer) (s : State) : Host.Outcome State Fault Refusal :=
  if s.admitsTransfer t then
    .next ({ s with mem := t.run s.params s.mem, flights := s.flights.erase ⟨s.requester, t⟩ }.respond .ok 0)
  else .next s

/-- One step of a bulk request of `s.requester`: its completion step if it is in flight, else its start step
(60_exceptions.md R149, DEDUCED, log 6). -/
def bulkStep (t : Transfer) (s : State) : Host.Outcome State Fault Refusal :=
  if s.flights.contains ⟨s.requester, t⟩ then bulkComplete t s else bulkStart t s

/-- `H2S.MANY` (41_bulk_simd_conversion.md R116): `BULK(2, 4, h2s, H2S_MANY_GATED)`. -/
def execH2sMany (dst dstLen src srcLen : Nat) (s : State) : Host.Outcome State Fault Refusal :=
  bulkStep ⟨.h2sMany, dst, dstLen, src, srcLen⟩ s

/-- `S2H.MANY` (41_bulk_simd_conversion.md R117): `BULK(4, 2, s2h, true)`. -/
def execS2hMany (dst dstLen src srcLen : Nat) (s : State) : Host.Outcome State Fault Refusal :=
  bulkStep ⟨.s2hMany, dst, dstLen, src, srcLen⟩ s

end Sys2Proof.Machine
end

