-- ==== Sys2Proof/Machine/Dispatch.lean ====
section
/-! DEFINITION. The dispatch of a request to its meaning (spec 30_encoding.md R62). -/

namespace Sys2Proof.Machine

def exec (i : Instr) (s : State) : Host.Outcome State Fault Refusal :=
  match i with
  | .h2s h => Sys2Proof.Machine.execH2s h s
  | .s2h x => Sys2Proof.Machine.execS2h x s
  | .h2sMany dst dstLen src srcLen => Sys2Proof.Machine.execH2sMany dst dstLen src srcLen s
  | .s2hMany dst dstLen src srcLen => Sys2Proof.Machine.execS2hMany dst dstLen src srcLen s

end Sys2Proof.Machine
end

