-- ==== Sys2Proof/Machine/Inputs.lean ====
section
/-! DEFINITION. What one move of the host, or of the block's service, does: sending request words, the completion of a
bulk request, CAP, host accesses and the race rule, the memory map, reset of the block
(spec 20_memory.md R47 to R51, 60_exceptions.md R149, 70_reset_and_hazards.md R160 to R165). -/

namespace Sys2Proof.Machine

/-- The bulk request a requester waits for: a requester issues nothing until the response arrives
(20_memory.md R50). -/
def State.outstanding (s : State) (agent : Nat) : Option Flight :=
  s.flights.find? (fun f => f.requester == agent)

/-- The completion step of a bulk request in flight: the next step of that request, for its own requester
(60_exceptions.md R149). -/
def completeFlight (f : Flight) (s : State) : Host.Outcome State Fault Refusal :=
  exec f.transfer.instr { s with requester := f.requester }

/-- The state in which a decoded request of `agent` runs: the words after it stay with the host
(30_encoding.md R66). -/
def State.fetched (s : State) (agent : Nat) (rest : List Word) (later : List Input) : State :=
  { s with requester := agent, inputs := if rest = [] then later else .send agent rest :: later }

/-- Serve the request at the front of a requester's words (30_encoding.md R66, R67). -/
def serveWords (agent : Nat) (words : List Word) (later : List Input) (s : State) : Host.Outcome State Fault Refusal :=
  match decode s.params words with
  | .request i rest => exec i (s.fetched agent rest later)
  | .reserved rest => .next (s.fetched agent rest later).respondIllegal
  | .truncated => .refused .truncatedRequest

/-- A write by a host agent races with a bulk request whose source prefix or destination prefix it touches
(20_memory.md R51). -/
def State.writeRaces (s : State) (r : Span) : Bool :=
  s.flights.any (fun f => f.transfer.srcRead.overlaps r || f.transfer.dstWritten.overlaps r)

/-- A read by a host agent races with a bulk request whose destination prefix it touches (20_memory.md R51). -/
def State.readRaces (s : State) (r : Span) : Bool :=
  s.flights.any (fun f => f.transfer.dstWritten.overlaps r)

/-- What a host access that is not stuck does: outside the address space it is no access (20_memory.md R40), in
conflict with a request in flight it is a race (R51), else it happens. Where several stops apply, noSuchAddress comes
before bufferRace, and both before the stuck case of `State.accessStuck` (DESIGN CHOICE, log 25). -/
def hostAccess (r : Span) (races : Bool) (done : State) (s : State) : Host.Outcome State Fault Refusal :=
  if ¬ r.fits s.params.addrLimit then .fault .noSuchAddress
  else if races then .fault .bufferRace
  else .next done

/-- A reset abandons one bulk request: its destination prefix holds free values (70_reset_and_hazards.md R161). -/
def State.abandon (s : State) (f : Flight) : State :=
  let r := f.transfer.dstWritten
  { s with mem := s.mem.writeFree r.base s.freeDraws r.size, freeDraws := s.freeDraws + r.size }

/-- Reset of the block: every request in flight is abandoned without a response, and nothing else changes
(70_reset_and_hazards.md R160, R161, DESIGN CHOICE, log 18). -/
def State.resetBlock (s : State) : State := { s.flights.foldl State.abandon s with flights := [] }

/-- Do a host move that waits for no response and is not stuck. -/
def takeInput (i : Input) (later : List Input) (s : State) : Host.Outcome State Fault Refusal :=
  match i with
  | .send agent words => serveWords agent words later s
  | .answer _ => .next { s with inputs := later }
  | .driveCap level => .next { s with cap := level, inputs := later }
  | .hostWrite _ addr bytes =>
    hostAccess ⟨addr, bytes.length⟩ (s.writeRaces ⟨addr, bytes.length⟩)
      { s with mem := s.mem.writeBytes addr bytes, inputs := later } s
  | .hostRead _ addr len =>
    hostAccess ⟨addr, len⟩ (s.readRaces ⟨addr, len⟩) { s with inputs := later } s
  | .mapMemory unadmitted => .next { s with unadmitted := unadmitted, inputs := later }
  | .resetBlock => .next { s with inputs := later }.resetBlock

/-- The agent whose move an input is, where it must wait for that agent's response (20_memory.md R50). -/
def Input.waitsFor : Input → Option Nat
  | .send agent _ => some agent
  | .answer agent => some agent
  | .hostWrite agent _ _ => some agent
  | .hostRead agent _ _ => some agent
  | .driveCap _ => none
  | .mapMemory _ => none
  | .resetBlock => none

/-- A host access that is stuck: in the address space, in no race, but not admitted (92_eei_decisions.md D15,
DESIGN CHOICE, log 25). -/
def State.accessStuck (s : State) : Input → Bool
  | .hostWrite _ addr bytes =>
    let r : Span := ⟨addr, bytes.length⟩
    r.fits s.params.addrLimit && !s.writeRaces r && !s.admitsSpan r
  | .hostRead _ addr len =>
    let r : Span := ⟨addr, len⟩
    r.fits s.params.addrLimit && !s.readRaces r && !s.admitsSpan r
  | .send _ _ => false
  | .answer _ => false
  | .driveCap _ => false
  | .mapMemory _ => false
  | .resetBlock => false

/-- A move that cannot happen now: its agent waits for a bulk request that is stuck (20_memory.md R47, R50), or the
move is itself a stuck access. -/
def State.moveStuck (s : State) (i : Input) : Bool :=
  match i.waitsFor.bind s.outstanding with
  | some f => !s.admitsTransfer f.transfer
  | none => s.accessStuck i

/-- The move of an agent that has an earlier move still to make. -/
def Input.heldBy (held : List Nat) (i : Input) : Bool :=
  match i.waitsFor with
  | some agent => held.contains agent
  | none => false

/-- The first move that can happen, and the moves that are left. A stuck move stays and holds its own agent's later
moves, and nobody else's (log 9). -/
def State.firstMove (s : State) : List Nat → List Input → Option (Input × List Input)
  | _, [] => none
  | held, i :: later =>
    if s.moveStuck i || i.heldBy held then
      (State.firstMove s (i.waitsFor.toList ++ held) later).map (fun found => (found.1, i :: found.2))
    else some (i, later)

/-- The next move of the host, and the moves that are left. -/
def State.nextMove (s : State) : Option (Input × List Input) := s.firstMove [] s.inputs

/-- One transition with a move to make: if its agent waits for a response, that response comes first and the
input stays (20_memory.md R50, DEDUCED, log 15); else the input is done. -/
def serveInput (i : Input) (later : List Input) (s : State) : Host.Outcome State Fault Refusal :=
  match i.waitsFor.bind s.outstanding with
  | some f => completeFlight f s
  | none => takeInput i later s

/-- The oldest request in flight that is not stuck. -/
def State.oldestAdmitted (s : State) : Option Flight := s.flights.find? (fun f => s.admitsTransfer f.transfer)

/-- One transition with no move to make: the block answers its oldest request in flight that is not stuck
(70_reset_and_hazards.md R167, DESIGN CHOICE, log 5), or waits (10_state.md R21). -/
def serveOldest (s : State) : Host.Outcome State Fault Refusal :=
  match s.oldestAdmitted with
  | some f => completeFlight f s
  | none => .next s

/-- One transition. A faulted state is quiescent (60_exceptions.md R144, DEDUCED, log 8). -/
def advance (s : State) : Host.Outcome State Fault Refusal :=
  match s.recordedFault with
  | some f => .fault f
  | none =>
    match s.nextMove with
    | some (i, later) => serveInput i later s
    | none => serveOldest s

/-- A requester that waits for no response: above every requester with a request in flight. -/
def State.idleRequester (s : State) : Nat := s.flights.foldl (fun k f => max k (f.requester + 1)) 0

end Sys2Proof.Machine
end

