-- ==== Sys2Proof/Machine/Step.lean ====
section
/-! DEFINITION. The step of the machine, and how the host hands it one request of the opcode table. -/

namespace Sys2Proof.Machine

/-- One step: the next move of the host, or of the block's service. -/
def step (s : State) : Host.Outcome State Fault Refusal := Sys2Proof.Machine.advance s

/-- `s` with one request sent first by a requester that waits for nothing, so that the next step runs it. The bits of
the request are numbered as spec/opcode_table.json numbers them; a recorded fault would stop the step, so none stands. -/
def State.withFetchWord (s : State) (nbits w : Nat) : State :=
  { s with
    inputs := .send s.idleRequester (tableWords s.params nbits w) :: s.inputs
    recordedFault := none }

end Sys2Proof.Machine
end

