-- ==== Sys2Proof/Machine/Value.lean ====
section
/-! DEFINITION. The category and the value of a bit pattern (spec 00_scope.md R11), the terms in which the statements
about the conversions are written. The machine itself never computes a value. -/

namespace Sys2Proof

/-- The five categories (00_scope.md R11). -/
inductive Category where
  | zero
  | subnormal
  | normal
  | infinity
  | nan
deriving DecidableEq, Repr

/-- The category of a binary16 pattern (00_scope.md R11). -/
def Half.category (h : Half) : Category :=
  if h.exp = 0x1F then (if h.man = 0 then .infinity else .nan)
  else if h.exp = 0 then (if h.man = 0 then .zero else .subnormal)
  else .normal

/-- The category of a binary32 pattern (00_scope.md R11). -/
def Single.category (x : Single) : Category :=
  if x.exp = 0xFF then (if x.man = 0 then .infinity else .nan)
  else if x.exp = 0 then (if x.man = 0 then .zero else .subnormal)
  else .normal

/-- The magnitude of a zero, subnormal or normal binary16 pattern, in units of `2^-24` (00_scope.md R11). -/
def Half.magnitude (h : Half) : Nat :=
  if h.exp = 0 then h.man.toNat else (1024 + h.man.toNat) * 2 ^ (h.exp.toNat - 1)

/-- The magnitude of a zero, subnormal or normal binary32 pattern, in units of `2^-149` (00_scope.md R11). -/
def Single.magnitude (x : Single) : Nat :=
  if x.exp = 0 then x.man.toNat else (2 ^ 23 + x.man.toNat) * 2 ^ (x.exp.toNat - 1)

/-- A number with a sign and the two infinities; finite numbers in units of `2^-149`, the least binary32 magnitude. -/
abbrev Value := WithBot (WithTop Int)

/-- The value with this sign bit and this finite magnitude. -/
def Value.finite (sign : BitVec 1) (magnitude : Nat) : Value :=
  (((if sign = 1 then -(magnitude : Int) else (magnitude : Int)) : WithTop Int) : Value)

/-- The infinity with this sign bit. -/
def Value.infinite (sign : BitVec 1) : Value := if sign = 1 then ⊥ else ((⊤ : WithTop Int) : Value)

/-- The value of a binary16 pattern, none for a NaN (00_scope.md R11); `2^-24` is `2^125` units. -/
def Half.value (h : Half) : Option Value :=
  match h.category with
  | .nan => none
  | .infinity => some (Value.infinite h.sign)
  | .zero => some (Value.finite h.sign 0)
  | .subnormal => some (Value.finite h.sign (h.magnitude * 2 ^ 125))
  | .normal => some (Value.finite h.sign (h.magnitude * 2 ^ 125))

/-- The value of a binary32 pattern, none for a NaN (00_scope.md R11). -/
def Single.value (x : Single) : Option Value :=
  match x.category with
  | .nan => none
  | .infinity => some (Value.infinite x.sign)
  | .zero => some (Value.finite x.sign 0)
  | .subnormal => some (Value.finite x.sign x.magnitude)
  | .normal => some (Value.finite x.sign x.magnitude)

end Sys2Proof
end

