-- ==== Sys2Proof/Safety.lean ====
section
/-! DEFINITION. What the statements are made of: the invariant of the machine, and what a run that broke no host duty
is (spec 60_exceptions.md R144; 20_memory.md R43 to R51). -/

namespace Sys2Proof.Machine

/-- The transfer meets the memory preconditions (20_memory.md R43, R46, R48). -/
abbrev Transfer.sound (p : Params) (t : Transfer) : Prop := t.precondition p = none

/-- Two requests in flight belong to two requesters and do not conflict (20_memory.md R50, R51). -/
abbrev Flight.compatible (f g : Flight) : Prop :=
  f.requester ≠ g.requester ∧ f.transfer.conflicts g.transfer = false

/-- The invariant: parameters in range; memory canonical and inside the address space; every request in flight sound;
requests in flight pairwise compatible; every response's status one of the three; no recorded fault but the one that is
recorded. -/
structure State.Inv (s : State) : Prop where
  params : s.params.valid = true
  canonical : s.mem.wf
  inSpace : ∀ c ∈ s.mem, c.1 < s.params.addrLimit
  sound : ∀ f ∈ s.flights, f.transfer.sound s.params
  compatible : s.flights.Pairwise Flight.compatible
  statuses : ∀ r ∈ s.responses, (Status.ofCode r.status).isSome = true
  recorded : s.recordedFault = none ∨ s.recordedFault = some .illegalRequest

/-- A state no host duty was broken on the way to: nothing is recorded against the host (60_exceptions.md R144). -/
def State.faultFree (s : State) : Bool := s.recordedFault.isNone

end Sys2Proof.Machine
end

