-- ==== Sys2Proof/Certificates/Slice0/Obligations.lean ====
section
/-! DEFINITION. The statements for the provers, one `def Obligations.<Name> : Prop` each. Every docstring names the rule
of spec/ that the statement formalises, or says what it is derived from. -/

open Sys2Proof Sys2Proof.Machine

/-! ## Encoding -/

/-- The request words that programs P1, P2 and P4 of 95_test_vectors.md list, and rows E5, E8 and E9 there, decode as
30_encoding.md R62 to R64 and R67 say. -/
def Obligations.ListedRequestWordsDecode : Prop :=
  decode {} [0x00000001, 0x00003555] = .request (.h2s 0x3555) [] ∧
  decode {} [0x00000002, 0x3EAAA000, 0x00000002] = .request (.s2h 0x3EAAA000) [0x00000002] ∧
  decode {} [0x00000003, 0x00001000, 0, 0x00000011, 0, 0x00002000, 0, 0x00000011, 0] =
    .request (.h2sMany 0x1000 17 0x2000 17) [] ∧
  decode {} [0x00000004, 0x00001000, 0, 0x00000004, 0, 0x00002000, 0, 0x00000005, 0] =
    .request (.s2hMany 0x1000 4 0x2000 5) [] ∧
  decode {} [0x00000000, 7] = .reserved [7] ∧
  decode {} [0x00000011, 7] = .reserved [7] ∧
  decode {} [0x80000002, 7] = .reserved [7]

/-- Derived from 30_encoding.md R60 to R66: for every parameter and every well-formed request, whatever words follow,
the decoder gives back the request that was encoded, every operand at every value, and leaves the words that follow. -/
def Obligations.EncodedRequestDecodesBack : Prop :=
  ∀ (p : Params) (i : Instr) (rest : List Word), i.wellFormed p = true →
    decode p (encode p i ++ rest) = .request i rest

/-- Derived from 30_encoding.md R60 to R67, the other direction: words that decode to a request are that request's
encoding, but for the half of `H2S`'s operand word that is ignored, and the request is well-formed. -/
def Obligations.DecodedWordsAreTheEncoding : Prop :=
  ∀ (p : Params) (ws : List Word) (i : Instr) (rest : List Word), decode p ws = .request i rest →
    i.wellFormed p = true ∧
    match i with
    | .h2s h => ∃ high : BitVec 16, ws = [0x00000001, high ++ h] ++ rest
    | .s2h x => ws = [0x00000002, x] ++ rest
    | .h2sMany _ _ _ _ => ws = encode p i ++ rest
    | .s2hMany _ _ _ _ => ws = encode p i ++ rest

/-- Derived from 30_encoding.md R66: the length of a request follows from `W0` alone. A reserved header is one word;
`OP` 1 or 2 takes one operand word, `OP` 3 or 4 takes `4 × ADDR_WIDTH / 32`. R66 does not say what fewer words are: that
they decode as `.truncated` is the model's choice, log 12. -/
def Obligations.RequestLengthFollowsFromHeader : Prop :=
  ∀ (p : Params) (w0 : Word) (ws : List Word),
    (w0 = 1 ∨ w0 = 2 →
      (ws = [] → decode p (w0 :: ws) = .truncated) ∧
      ∀ w1 rest, ws = w1 :: rest → ∃ i, decode p (w0 :: ws) = .request i rest) ∧
    (w0 = 3 ∨ w0 = 4 →
      (ws.length < 4 * (p.addrWidth / 32) → decode p (w0 :: ws) = .truncated) ∧
      (4 * (p.addrWidth / 32) ≤ ws.length → ∃ i, decode p (w0 :: ws) = .request i (ws.drop (4 * (p.addrWidth / 32))))) ∧
    (w0 ≠ 1 ∧ w0 ≠ 2 ∧ w0 ≠ 3 ∧ w0 ≠ 4 → decode p (w0 :: ws) = .reserved ws)

/-- Derived from 30_encoding.md R61, R62 and R67: the headers that decode as reserved are exactly those with a bit set
in `W0[31:4]` or with `OP` 0x0 or 0x5 to 0xF. -/
def Obligations.ReservedHeadersAreExactlyThese : Prop :=
  ∀ (p : Params) (w0 : Word) (ws : List Word),
    decode p (w0 :: ws) = .reserved ws ↔
      (w0 >>> 4 ≠ 0 ∨ (w0 &&& 0xF).toNat = 0 ∨ 5 ≤ (w0 &&& 0xF).toNat)

/-- 30_encoding.md R63: the operand of `H2S` is `W1[15:0]`, `W1[31:16]` has no effect; the operand of `S2H` is all of
`W1`. No operand word makes a scalar request fail: it decodes, and its operation answers status 0. -/
def Obligations.ScalarOperandWord : Prop :=
  ∀ (p : Params) (w1 : Word) (rest : List Word) (s : State),
    decode p (0x00000001 :: w1 :: rest) = .request (.h2s (w1.extractLsb' 0 16)) rest ∧
    decode p (0x00000002 :: w1 :: rest) = .request (.s2h w1) rest ∧
    (∃ r, exec (.h2s (w1.extractLsb' 0 16)) s = .next { s with responses := ⟨s.requester, 0, r⟩ :: s.responses }) ∧
    ∃ r, exec (.s2h w1) s = .next { s with responses := ⟨s.requester, 0, r⟩ :: s.responses }

/-- Derived from 30_encoding.md R68: what an assembler makes of the literals of a source line. It refuses `h2s` with
h at or above `2^16`, `s2h` with x at or above `2^32`, a bulk operand at or above `2^ADDR_WIDTH`, and any other number of
literals; every other line becomes the request with the operands the line gives, in the line's order. -/
def Obligations.AssemblerRefusesLargeLiterals : Prop :=
  ∀ (p : Params) (v dst dstLen src srcLen : Nat) (operands : List Nat),
    assemble p .h2s [v] = (if v < 2 ^ 16 then some (.h2s (BitVec.ofNat 16 v)) else none) ∧
    assemble p .s2h [v] = (if v < 2 ^ 32 then some (.s2h (BitVec.ofNat 32 v)) else none) ∧
    (dst < 2 ^ p.addrWidth ∧ dstLen < 2 ^ p.addrWidth ∧ src < 2 ^ p.addrWidth ∧ srcLen < 2 ^ p.addrWidth →
      assemble p .h2sMany [dst, dstLen, src, srcLen] = some (.h2sMany dst dstLen src srcLen) ∧
      assemble p .s2hMany [dst, dstLen, src, srcLen] = some (.s2hMany dst dstLen src srcLen)) ∧
    (2 ^ p.addrWidth ≤ dst ∨ 2 ^ p.addrWidth ≤ dstLen ∨ 2 ^ p.addrWidth ≤ src ∨ 2 ^ p.addrWidth ≤ srcLen →
      assemble p .h2sMany [dst, dstLen, src, srcLen] = none ∧
      assemble p .s2hMany [dst, dstLen, src, srcLen] = none) ∧
    (operands.length ≠ 1 → assemble p .h2s operands = none ∧ assemble p .s2h operands = none) ∧
    (operands.length ≠ 4 → assemble p .h2sMany operands = none ∧ assemble p .s2hMany operands = none)

/-- Derived from 30_encoding.md R68: the mnemonics are `h2s`, `s2h`, `h2s.many` and `s2h.many` and no others, and they
are case-insensitive: any letter may be written in upper case. -/
def Obligations.MnemonicsNameTheOperations : Prop :=
  ∀ name : List Char,
    (Opcode.ofMnemonic name = some .h2s ↔ name.map Char.toLower = ['h', '2', 's']) ∧
    (Opcode.ofMnemonic name = some .s2h ↔ name.map Char.toLower = ['s', '2', 'h']) ∧
    (Opcode.ofMnemonic name = some .h2sMany ↔ name.map Char.toLower = ['h', '2', 's', '.', 'm', 'a', 'n', 'y']) ∧
    (Opcode.ofMnemonic name = some .s2hMany ↔ name.map Char.toLower = ['s', '2', 'h', '.', 'm', 'a', 'n', 'y']) ∧
    Opcode.ofMnemonic (name.map Char.toUpper) = Opcode.ofMnemonic name

/-! ## The step and its requests -/

/-- Derived from 00_scope.md R3, 20_memory.md R50 and 30_encoding.md R66: where the next move of the host is a request
of a requester that waits for nothing, and its words decode, the step is `exec` of that request, for that requester;
the words after the request stay the requester's next ones. -/
def Obligations.StepRunsTheDecodedRequest : Prop :=
  ∀ (s : State) (agent : Nat) (words : List Word) (later : List Input) (i : Instr) (rest : List Word),
    s.recordedFault = none → s.inputs = .send agent words :: later →
    (∀ f ∈ s.flights, f.requester ≠ agent) → decode s.params words = .request i rest →
    step s = exec i { s with requester := agent, inputs := if rest = [] then later else .send agent rest :: later }

/-- Derived from 60_exceptions.md R142 and R144: a request whose header is reserved is answered `(2, 0)`; no operand word
is read, CAP and memory are untouched, and the fault IllegalRequest is recorded along with the response. It is the model's
reading, log 8, that the answer is a next state which records the fault, that the words after the header stay with the
requester, and that the next step is the recorded fault. -/
def Obligations.ReservedHeaderIsAnsweredAndRecorded : Prop :=
  ∀ (s : State) (agent : Nat) (w0 : Word) (ws : List Word) (later : List Input),
    s.recordedFault = none → s.inputs = .send agent (w0 :: ws) :: later →
    (∀ f ∈ s.flights, f.requester ≠ agent) → w0 ≠ 1 → w0 ≠ 2 → w0 ≠ 3 → w0 ≠ 4 →
    ∃ t, step s = .next t ∧
      t = { s with
        requester := agent
        inputs := if ws = [] then later else .send agent ws :: later
        responses := ⟨agent, 2, 0⟩ :: s.responses
        recordedFault := some .illegalRequest } ∧
      step t = .fault .illegalRequest

/-- Derived from 60_exceptions.md R142 and R144: a fault is recorded by a reserved header and by nothing else. -/
def Obligations.OnlyAReservedHeaderRecordsAFault : Prop :=
  ∀ s t : State, step s = .next t → t.recordedFault ≠ none →
    ∃ agent w0 ws later, s.nextMove = some (.send agent (w0 :: ws), later) ∧ w0 ≠ 1 ∧ w0 ≠ 2 ∧ w0 ≠ 3 ∧ w0 ≠ 4

/-- Derived from 20_memory.md R50 (log 15): a move of a requester that waits for a response does not happen before it.
Where the outstanding request is over admitted memory, the step completes it, and the move stays. -/
def Obligations.RequesterWaitsForItsResponse : Prop :=
  ∀ (s : State) (f : Flight) (i : Input) (later : List Input),
    s.recordedFault = none → s.inputs = i :: later → f ∈ s.flights → i.waitsFor = some f.requester →
    (∀ g ∈ s.flights, g.requester = f.requester → g = f) → s.admitsTransfer f.transfer = true →
    step s = exec f.transfer.instr { s with requester := f.requester }

/-! ## Scalar operations -/

/-- 40_scalar_conversion.md R80: both scalar operations answer on every operand, with status 0; the result depends on
the operand bits alone (and on the NaN map the implementation has), and nothing but the response changes. -/
def Obligations.ScalarOperationsAreTotalAndPure : Prop :=
  ∀ map : NanMap, ∃ (f : Half → Single) (g : Single → Half),
    (∀ (h : Half) (s : State), s.params.h2sNan = map →
      exec (.h2s h) s = .next { s with responses := ⟨s.requester, 0, f h⟩ :: s.responses }) ∧
    ∀ (x : Single) (s : State), s.params.s2hNan = map →
      exec (.s2h x) s = .next { s with responses := ⟨s.requester, 0, (0 : BitVec 16) ++ g x⟩ :: s.responses }

/-- 40_scalar_conversion.md R86: `H2S` with operand word `w1`: its encoding, its operand `W1[15:0]`, and its result,
branch by branch, in the rule's own shifts and masks. -/
def Obligations.H2sResult : Prop :=
  ∀ (w1 : Word) (s : State), let h : Half := w1.extractLsb' 0 16
    decode s.params [0x00000001, w1] = .request (.h2s h) [] ∧ ∃ r : Single,
    exec (.h2s h) s = .next { s with responses := ⟨s.requester, 0, r⟩ :: s.responses } ∧
    (h.exp = 0x1F ∧ h.man ≠ 0 → r = h2sNan s.params.h2sNan h) ∧
    (h.exp = 0x1F ∧ h.man = 0 → r = (h.sign.setWidth 32 <<< 31) ||| 0x7F800000) ∧
    (h.exp = 0 ∧ h.man = 0 → r = h.sign.setWidth 32 <<< 31) ∧
    (∀ p : Nat, h.exp = 0 ∧ h.man.getLsbD p = true ∧ (∀ q, p < q → h.man.getLsbD q = false) →
      r = (h.sign.setWidth 32 <<< 31) ||| (BitVec.ofNat 32 (p + 103) <<< 23) |||
        ((h.man.setWidth 32 <<< (23 - p)) &&& 0x007FFFFF)) ∧
    (1 ≤ h.exp.toNat ∧ h.exp.toNat ≤ 30 →
      r = (h.sign.setWidth 32 <<< 31) ||| (BitVec.ofNat 32 (h.exp.toNat + 112) <<< 23) ||| (h.man.setWidth 32 <<< 13))

/-- 40_scalar_conversion.md R81: `H2S` widens exactly: on every operand that is no NaN it answers the pattern of the
same value and the same sign, and a binary16 subnormal becomes a binary32 normal number. -/
def Obligations.H2sWidensExactly : Prop :=
  ∀ (h : Half) (v : Value) (s : State), h.value = some v → ∃ r : Single,
    exec (.h2s h) s = .next { s with responses := ⟨s.requester, 0, r⟩ :: s.responses } ∧
    r.value = some v ∧ r.sign = h.sign ∧ (h.category = .subnormal → r.category = .normal)

/-- 40_scalar_conversion.md R84: for a NaN operand the result of `H2S` is a NaN of the same sign, under every map, the
bulk operation uses the same map, and the default map is the rule's. -/
def Obligations.H2sNanStaysNan : Prop :=
  ∀ (p : Params) (h : Half), h.exp = 0x1F → h.man ≠ 0 →
    (h2s p.h2sNan h).exp = 0xFF ∧ (h2s p.h2sNan h).man ≠ 0 ∧ (h2s p.h2sNan h).sign = h.sign ∧
    BulkOp.convert p .h2sMany h.toNat = (h2s p.h2sNan h).toNat ∧
    h2s .ruleDefault h = (h.sign.setWidth 32 <<< 31) ||| 0x7FC00000 ||| (h.man.setWidth 32 <<< 13)

/-- 40_scalar_conversion.md R85: for a NaN operand the result of `S2H` is a NaN of the same sign with the exponent
forced to all ones, under every map, the bulk operation uses the same map, and the default map is the rule's. -/
def Obligations.S2hNanStaysNan : Prop :=
  ∀ (p : Params) (x : Single), x.exp = 0xFF → x.man ≠ 0 →
    (s2h p.s2hNan x).exp = 0x1F ∧ (s2h p.s2hNan x).man ≠ 0 ∧ (s2h p.s2hNan x).sign = x.sign ∧
    BulkOp.convert p .s2hMany x.toNat = (s2h p.s2hNan x).toNat ∧
    s2h .ruleDefault x = (x.sign.setWidth 16 <<< 15) ||| 0x7E00 ||| (x.extractLsb' 13 10).setWidth 16

/-- 40_scalar_conversion.md R87: `h2s` is injective on operands that are no NaN; its results there are exactly the
binary32 patterns whose value is representable in binary16; NaN goes to NaN, and nothing else does. -/
def Obligations.H2sIsInjective : Prop :=
  ∀ map : NanMap,
    (∀ h g : Half, h.category ≠ .nan → g.category ≠ .nan → h2s map h = h2s map g → h = g) ∧
    (∀ x : Single, (∃ h : Half, h.category ≠ .nan ∧ h2s map h = x) ↔
      ∃ (c : Half) (v : Value), c.value = some v ∧ x.value = some v) ∧
    ∀ h : Half, (h2s map h).category = .nan ↔ h.category = .nan

/-- 40_scalar_conversion.md R90: `S2H` with operand word `x`: its encoding and its result, branch by branch, in the
rule's own shifts, masks and additions. -/
def Obligations.S2hResult : Prop :=
  ∀ (x : Single) (s : State), decode s.params [0x00000002, x] = .request (.s2h x) [] ∧ ∃ r : Half,
    exec (.s2h x) s = .next { s with responses := ⟨s.requester, 0, r.setWidth 32⟩ :: s.responses } ∧
    let e := x.exp.toNat
    let m := x.man.toNat
    let sg : Nat := x.sign.toNat <<< 15
    (e = 0xFF ∧ m ≠ 0 → r = s2hNan s.params.s2hNan x) ∧
    (e = 0xFF ∧ m = 0 → r.toNat = sg ||| 0x7C00) ∧
    (143 ≤ e ∧ e ≤ 254 → r.toNat = sg ||| 0x7C00) ∧
    (113 ≤ e ∧ e ≤ 142 →
      let t := ((e - 112) <<< 10) ||| (m >>> 13)
      let rem := m &&& 0x1FFF
      r.toNat = sg ||| (if 0x1000 < rem ∨ (rem = 0x1000 ∧ t % 2 = 1) then t + 1 else t)) ∧
    (e = 0 → r.toNat = sg) ∧
    (1 ≤ e ∧ e ≤ 112 →
      let sig := 0x800000 ||| m
      let k := 126 - e
      let q := sig >>> k
      let rem := sig - (q <<< k)
      let half := 1 <<< (k - 1)
      r.toNat = sg ||| (if half < rem ∨ (rem = half ∧ q % 2 = 1) then q + 1 else q))

/-- 40_scalar_conversion.md R82: `S2H` rounds to nearest, ties to even. On every finite operand the sign is kept; below
the threshold 65520 the result is finite and no finite binary16 magnitude is nearer, and where another is as near, the
result's lowest bit is 0; from the threshold on it is the infinity. Magnitudes in units of `2^-149`. -/
def Obligations.S2hRoundsToNearestEven : Prop :=
  ∀ (x : Single) (s : State), x.exp ≠ 0xFF → ∃ r : Half,
    exec (.s2h x) s = .next { s with responses := ⟨s.requester, 0, r.setWidth 32⟩ :: s.responses } ∧
    r.sign = x.sign ∧
    (x.magnitude < 65520 * 2 ^ 149 →
      r.exp ≠ 0x1F ∧
      ∀ c : Half, c.exp ≠ 0x1F →
        let near := ((x.magnitude : Int) - (r.magnitude * 2 ^ 125 : Nat)).natAbs
        let other := ((x.magnitude : Int) - (c.magnitude * 2 ^ 125 : Nat)).natAbs
        near ≤ other ∧ (near = other → c.magnitude ≠ r.magnitude → r.toNat % 2 = 0)) ∧
    (65520 * 2 ^ 149 ≤ x.magnitude → r.exp = 0x1F ∧ r.man = 0)

/-- 40_scalar_conversion.md R83: the half-Infinity threshold is 65520, the pattern 0x477FF000: a finite operand gives
an infinity exactly from that magnitude on, below it the result is at most 65504, and 65504 gives the greatest finite
half. -/
def Obligations.HalfInfinityThreshold : Prop :=
  Single.magnitude 0x477FF000 = 65520 * 2 ^ 149 ∧ Half.magnitude 0x7BFF = 65504 * 2 ^ 24 ∧
  ∀ map : NanMap,
    s2h map 0x477FF000 = 0x7C00 ∧ s2h map 0x477FE000 = 0x7BFF ∧
    ∀ x : Single, x.exp ≠ 0xFF →
      ((s2h map x).category = .infinity ↔ Single.magnitude 0x477FF000 ≤ x.magnitude) ∧
      (x.magnitude < Single.magnitude 0x477FF000 → (s2h map x).magnitude ≤ Half.magnitude 0x7BFF)

/-- 40_scalar_conversion.md R88: the range table of `S2H` on finite operands. -/
def Obligations.S2hRanges : Prop :=
  ∀ (map : NanMap) (x : Single), x.exp ≠ 0xFF →
    let e := x.exp.toNat
    let m := x.man.toNat
    let low := ((s2h map x).extractLsb' 0 15).toNat
    (s2h map x).sign = x.sign ∧
    (e ≤ 101 → low = 0) ∧
    (e = 102 ∧ m = 0 → low = 0) ∧
    ((e = 102 ∧ m ≠ 0) ∨ (103 ≤ e ∧ e ≤ 112) → 0x0001 ≤ low ∧ low ≤ 0x0400) ∧
    (113 ≤ e ∧ (e ≤ 141 ∨ (e = 142 ∧ m < 0x7FF000)) → 0x0400 ≤ low ∧ low ≤ 0x7BFF) ∧
    ((e = 142 ∧ 0x7FF000 ≤ m) ∨ 143 ≤ e → low = 0x7C00)

/-- 40_scalar_conversion.md R91: `s2h (h2s h) = h` for every pattern that is no NaN; for a NaN, under the default maps,
the quiet bit is set. -/
def Obligations.WideningThenNarrowingGivesBack : Prop :=
  (∀ (wide narrow : NanMap) (h : Half), h.category ≠ .nan → s2h narrow (h2s wide h) = h) ∧
  ∀ h : Half, h.category = .nan → s2h .ruleDefault (h2s .ruleDefault h) = h ||| 0x0200

/-- 40_scalar_conversion.md R92: a finite operand exactly halfway between two neighbouring binary16 values (the one
above the greatest finite being `2^16`, the magnitude of pattern 0x7C00 as if it were finite) gives an even result; and
the rule's four examples. -/
def Obligations.TiesGoToEven : Prop :=
  ∀ map : NanMap,
    (∀ (x : Single) (k : Nat), x.exp ≠ 0xFF → k < 0x7C00 →
      2 * x.magnitude = (Half.magnitude (BitVec.ofNat 16 k) + Half.magnitude (BitVec.ofNat 16 (k + 1))) * 2 ^ 125 →
      (s2h map x).toNat % 2 = 0) ∧
    s2h map 0x33000000 = 0x0000 ∧ s2h map 0x33000001 = 0x0001 ∧
    s2h map 0x3F801000 = 0x3C00 ∧ s2h map 0x3F801001 = 0x3C01

/-- 40_scalar_conversion.md R95: `s2h` keeps order, and `h2s` keeps strict order, on operands that are no NaN. -/
def Obligations.ConversionsKeepOrder : Prop :=
  ∀ map : NanMap,
    (∀ (x y : Single) (u v : Value), x.value = some u → y.value = some v → u ≤ v →
      ∃ a b : Value, (s2h map x).value = some a ∧ (s2h map y).value = some b ∧ a ≤ b) ∧
    ∀ (h g : Half) (u v : Value), h.value = some u → g.value = some v → u < v →
      ∃ a b : Value, (h2s map h).value = some a ∧ (h2s map g).value = some b ∧ a < b

/-! ## Memory -/

/-- Derived from 20_memory.md R42 and R45: in either byte order, an element written is read back, and every byte
outside it is as it was. -/
def Obligations.ElementWrittenIsReadBack : Prop :=
  ∀ (e : Endian) (m : Memory) (a n v : Nat), m.wf → v < 2 ^ (8 * n) →
    (m.write e a n v).read e a n = v ∧
    ∀ x, x < a ∨ a + n ≤ x → (m.write e a n v).readByte x = m.readByte x

/-- Derived from 20_memory.md R42: little-endian, the byte at the lowest address holds bits 7 to 0 of the element, and
byte `k` bits `8k + 7` to `8k`; big-endian, the other way round. -/
def Obligations.ByteOrderOfAnElement : Prop :=
  ∀ (m : Memory) (a n v k : Nat), m.wf → k < n →
    (m.write .little a n v).readByte (a + k) = BitVec.ofNat 8 (v >>> (8 * k)) ∧
    (m.write .big a n v).readByte (a + (n - 1 - k)) = BitVec.ofNat 8 (v >>> (8 * k))

/-- Derived from 20_memory.md R49 and 60_exceptions.md R149: host memory changes in one step only where a host agent
writes it, the block is reset, or a bulk request in flight is completed; in the last case only bytes of that request's
destination elements `0 .. n - 1` change. -/
def Obligations.OnlyTheseEventsChangeMemory : Prop :=
  ∀ s t : State, step s = .next t → t.mem ≠ s.mem →
    (∃ agent addr bytes later, s.nextMove = some (.hostWrite agent addr bytes, later) ∧
      ∀ x, x < addr ∨ addr + bytes.length ≤ x → t.mem.readByte x = s.mem.readByte x) ∨
    (∃ later, s.nextMove = some (.resetBlock, later)) ∨
    ∃ f ∈ s.flights, t.flights = s.flights.erase f ∧ t.responses = ⟨f.requester, 0, 0⟩ :: s.responses ∧
      ∀ x, x < f.transfer.dst ∨
        f.transfer.dst + min f.transfer.srcLen f.transfer.dstLen * f.transfer.op.desize ≤ x →
        t.mem.readByte x = s.mem.readByte x

/-! ## Bulk operations: the start step -/

/-- 20_memory.md R43: a bulk request whose source or destination base is no multiple of its element size ends with
MisalignedBuffer, also when its element count is 0. -/
def Obligations.MisalignedBufferFaults : Prop :=
  ∀ (s : State) (dst dstLen src srcLen : Nat),
    ((⟨s.requester, ⟨.h2sMany, dst, dstLen, src, srcLen⟩⟩ : Flight) ∉ s.flights → ¬ 4 ∣ dst ∨ ¬ 2 ∣ src →
      exec (.h2sMany dst dstLen src srcLen) s = .fault .misalignedBuffer) ∧
    ((⟨s.requester, ⟨.s2hMany, dst, dstLen, src, srcLen⟩⟩ : Flight) ∉ s.flights → ¬ 2 ∣ dst ∨ ¬ 4 ∣ src →
      exec (.s2hMany dst dstLen src srcLen) s = .fault .misalignedBuffer)

/-- Derived from 20_memory.md R46: a bulk request with aligned bases and a declared range that passes
`2^ADDR_WIDTH` ends with AddressWrap. -/
def Obligations.WrappingBufferFaults : Prop :=
  ∀ (s : State) (dst dstLen src srcLen : Nat),
    ((⟨s.requester, ⟨.h2sMany, dst, dstLen, src, srcLen⟩⟩ : Flight) ∉ s.flights → 4 ∣ dst → 2 ∣ src →
      2 ^ s.params.addrWidth < dst + dstLen * 4 ∨ 2 ^ s.params.addrWidth < src + srcLen * 2 →
      exec (.h2sMany dst dstLen src srcLen) s = .fault .addressWrap) ∧
    ((⟨s.requester, ⟨.s2hMany, dst, dstLen, src, srcLen⟩⟩ : Flight) ∉ s.flights → 2 ∣ dst → 4 ∣ src →
      2 ^ s.params.addrWidth < dst + dstLen * 2 ∨ 2 ^ s.params.addrWidth < src + srcLen * 4 →
      exec (.s2hMany dst dstLen src srcLen) s = .fault .addressWrap)

/-- Derived from 20_memory.md R48 and 60_exceptions.md R145: a bulk request with aligned bases and fitting ranges whose
whole declared ranges share a byte ends with OverlappingBuffers, whatever CAP is. -/
def Obligations.OverlappingBuffersFault : Prop :=
  ∀ (s : State) (dst dstLen src srcLen a : Nat),
    ((⟨s.requester, ⟨.h2sMany, dst, dstLen, src, srcLen⟩⟩ : Flight) ∉ s.flights → 4 ∣ dst → 2 ∣ src →
      dst + dstLen * 4 ≤ 2 ^ s.params.addrWidth → src + srcLen * 2 ≤ 2 ^ s.params.addrWidth →
      dst ≤ a ∧ a < dst + dstLen * 4 ∧ src ≤ a ∧ a < src + srcLen * 2 →
      exec (.h2sMany dst dstLen src srcLen) s = .fault .overlappingBuffers) ∧
    ((⟨s.requester, ⟨.s2hMany, dst, dstLen, src, srcLen⟩⟩ : Flight) ∉ s.flights → 2 ∣ dst → 4 ∣ src →
      dst + dstLen * 2 ≤ 2 ^ s.params.addrWidth → src + srcLen * 4 ≤ 2 ^ s.params.addrWidth →
      dst ≤ a ∧ a < dst + dstLen * 2 ∧ src ≤ a ∧ a < src + srcLen * 4 →
      exec (.s2hMany dst dstLen src srcLen) s = .fault .overlappingBuffers)

/-- Derived from 41_bulk_simd_conversion.md R119 and 60_exceptions.md R149: `S2H.MANY` needs CAP, `H2S.MANY` only where
H2S_MANY_GATED is set. Where the gate fails, a request whose buffers are good is answered `(1, 0)` and nothing else
changes: no element is read or written, whatever the element count is. An ungated `H2S.MANY` starts without CAP: after
its start step it is in flight. R149 does not say which step answers a request whose gate fails: that its start step does,
and that the request is never in flight, is the model's choice, log 26. -/
def Obligations.CapabilityGate : Prop :=
  ∀ (s : State) (t : Transfer),
    (⟨s.requester, t⟩ : Flight) ∉ s.flights → t.sound s.params → s.cap = false →
    (t.op = .s2hMany ∨ s.params.h2sManyGated = true →
      exec t.instr s = .next { s with responses := ⟨s.requester, 1, 0⟩ :: s.responses }) ∧
    (t.op = .h2sMany ∧ s.params.h2sManyGated = false → (∀ f ∈ s.flights, f.transfer.conflicts t = false) →
      exec t.instr s = .next { s with flights := s.flights ++ [⟨s.requester, t⟩] })

/-- Derived from 41_bulk_simd_conversion.md R118, R119 and 60_exceptions.md R149: the start step of a bulk request with
good buffers, whose gate passes and which conflicts with no request in flight, puts it in flight and changes nothing
else; `H2S.MANY` needs no CAP where it is not gated. -/
def Obligations.BulkRequestStarts : Prop :=
  ∀ (s : State) (t : Transfer),
    (⟨s.requester, t⟩ : Flight) ∉ s.flights → t.sound s.params →
    (s.cap = true ∨ (t.op = .h2sMany ∧ s.params.h2sManyGated = false)) →
    (∀ f ∈ s.flights, f.transfer.conflicts t = false) →
    exec t.instr s = .next { s with flights := s.flights ++ [⟨s.requester, t⟩] }

/-- Derived from 20_memory.md R51 by the model's reading in log 7: a bulk request that writes what a request in flight
reads or writes, or reads what it writes, is a race as soon as both are in flight: at its start, where its gate passes. -/
def Obligations.ConflictingStartIsARace : Prop :=
  ∀ (s : State) (t : Transfer) (f : Flight) (a : Nat),
    (⟨s.requester, t⟩ : Flight) ∉ s.flights → t.sound s.params →
    (s.cap = true ∨ (t.op = .h2sMany ∧ s.params.h2sManyGated = false)) → f ∈ s.flights →
    ((f.transfer.dstWritten.contains a ∧ (t.srcRead.contains a ∨ t.dstWritten.contains a)) ∨
      (f.transfer.srcRead.contains a ∧ t.dstWritten.contains a)) →
    exec t.instr s = .fault .bufferRace

/-! ## Bulk operations: the completion step -/

/-- Derived from 41_bulk_simd_conversion.md R113, R116, R118 and 20_memory.md R49: the completion step of `H2S.MANY`.
For every `i < n` destination element `i` is `h2s` of source element `i`; every byte outside destination elements
`0 .. n - 1` is unchanged; the request is no more in flight and is answered `(0, 0)`; nothing else changes. -/
def Obligations.H2sManyCompletes : Prop :=
  ∀ (s : State) (dst dstLen src srcLen : Nat),
    let t : Transfer := ⟨.h2sMany, dst, dstLen, src, srcLen⟩
    let e := s.params.endian
    (⟨s.requester, t⟩ : Flight) ∈ s.flights → t.sound s.params → s.mem.wf →
    s.admitsSpan t.srcRead = true → s.admitsSpan t.dstWritten = true →
    ∃ m : Memory,
      exec (.h2sMany dst dstLen src srcLen) s = .next { s with
        mem := m
        flights := s.flights.erase ⟨s.requester, t⟩
        responses := ⟨s.requester, 0, 0⟩ :: s.responses } ∧
      (∀ i, i < min srcLen dstLen → m.read e (dst + i * 4) 4 =
        (h2s s.params.h2sNan (BitVec.ofNat 16 (s.mem.read e (src + i * 2) 2))).toNat) ∧
      ∀ a, a < dst ∨ dst + min srcLen dstLen * 4 ≤ a → m.readByte a = s.mem.readByte a

/-- Derived from 41_bulk_simd_conversion.md R113, R117, R118 and 20_memory.md R49: the completion step of `S2H.MANY`, as
for `H2S.MANY`, with `s2h` of each binary32 source element. -/
def Obligations.S2hManyCompletes : Prop :=
  ∀ (s : State) (dst dstLen src srcLen : Nat),
    let t : Transfer := ⟨.s2hMany, dst, dstLen, src, srcLen⟩
    let e := s.params.endian
    (⟨s.requester, t⟩ : Flight) ∈ s.flights → t.sound s.params → s.mem.wf →
    s.admitsSpan t.srcRead = true → s.admitsSpan t.dstWritten = true →
    ∃ m : Memory,
      exec (.s2hMany dst dstLen src srcLen) s = .next { s with
        mem := m
        flights := s.flights.erase ⟨s.requester, t⟩
        responses := ⟨s.requester, 0, 0⟩ :: s.responses } ∧
      (∀ i, i < min srcLen dstLen → m.read e (dst + i * 2) 2 =
        (s2h s.params.s2hNan (BitVec.ofNat 32 (s.mem.read e (src + i * 4) 4))).toNat) ∧
      ∀ a, a < dst ∨ dst + min srcLen dstLen * 2 ≤ a → m.readByte a = s.mem.readByte a

/-- Derived from 20_memory.md R47, 60_exceptions.md R140 and 93_implementation_defined.md: a bulk request that reads or
writes a byte the host does not admit is stuck. Its completion step changes nothing: no byte, no response, and it stays in
flight. Where every request in flight is stuck and the host has no move to make, the machine waits. That a stuck request
is a step that changes nothing is the model's form of it, log 9. -/
def Obligations.BulkRequestSticksOnUnadmittedMemory : Prop :=
  ∀ s : State,
    (∀ (t : Transfer) (q : Span) (a : Nat), (⟨s.requester, t⟩ : Flight) ∈ s.flights → q ∈ s.unadmitted →
      q.contains a = true → t.srcRead.contains a ∨ t.dstWritten.contains a → exec t.instr s = .next s) ∧
    (s.recordedFault = none → s.inputs = [] →
      (∀ f ∈ s.flights, ∃ q ∈ s.unadmitted, ∃ a, q.contains a = true ∧
        (f.transfer.srcRead.contains a ∨ f.transfer.dstWritten.contains a)) →
      step s = .next s)

/-- Derived from 60_exceptions.md R149 and 70_reset_and_hazards.md R167 (log 9): a stuck request holds up its own
requester and nobody else. Behind moves of requesters whose requests are stuck, the request of another requester runs,
and the stuck moves stay. -/
def Obligations.StuckRequestHoldsUpNoOther : Prop :=
  ∀ (s : State) (before later : List Input) (agent : Nat) (words : List Word) (i : Instr) (rest : List Word),
    s.recordedFault = none → s.inputs = before ++ .send agent words :: later →
    (∀ j ∈ before, ∃ f ∈ s.flights, j.waitsFor = some f.requester ∧
      ∀ g ∈ s.flights, g.requester = f.requester → s.admitsTransfer g.transfer = false) →
    (∀ f ∈ s.flights, f.requester ≠ agent) → decode s.params words = .request i rest →
    step s = exec i { s with
      requester := agent
      inputs := if rest = [] then before ++ later else .send agent rest :: (before ++ later) }

/-- Derived from 10_state.md R24 and 92_eei_decisions.md D9: CAP is used by the start step of a bulk request alone;
driven otherwise during the request, it changes nothing of the completion. Scalar operations never read it. -/
def Obligations.CapIsSampledOnce : Prop :=
  ∀ (s u : State) (i : Instr) (level : Bool),
    ((∃ h, i = .h2s h) ∨ (∃ x, i = .s2h x) ∨ ∃ t : Transfer, i = t.instr ∧ (⟨s.requester, t⟩ : Flight) ∈ s.flights) →
    exec i s = .next u → exec i { s with cap := level } = .next { u with cap := level }

/-- Derived from 41_bulk_simd_conversion.md R114 and R115: batching is not observable. A bulk request in flight leaves
the same state, but for the parameter itself, whatever `BATCH` is. -/
def Obligations.BatchIsNotObservable : Prop :=
  ∀ (s u : State) (t : Transfer) (b : Nat),
    (⟨s.requester, t⟩ : Flight) ∈ s.flights → t.sound s.params → s.mem.wf → exec t.instr s = .next u →
    exec t.instr { s with params := { s.params with batch := b } } =
      .next { u with params := { s.params with batch := b } }

/-- 41_bulk_simd_conversion.md R120: an OK bulk request leaves each destination element `i < n` equal to the RESULT bits
of the scalar request on source element `i`, for every length. -/
def Obligations.BulkEqualsScalar : Prop :=
  ∀ (s u : State) (t : Transfer),
    (⟨s.requester, t⟩ : Flight) ∈ s.flights → t.sound s.params → s.mem.wf → exec t.instr s = .next u →
    u.responses = ⟨s.requester, 0, 0⟩ :: s.responses →
    ∀ i, i < min t.srcLen t.dstLen → ∃ result : Word,
      (match t.op with
        | .h2sMany => exec (.h2s (BitVec.ofNat 16 (s.mem.read s.params.endian (t.src + i * 2) 2))) s
        | .s2hMany => exec (.s2h (BitVec.ofNat 32 (s.mem.read s.params.endian (t.src + i * 4) 4))) s) =
        .next { s with responses := ⟨s.requester, 0, result⟩ :: s.responses } ∧
      (match t.op with
        | .h2sMany => u.mem.read s.params.endian (t.dst + i * 4) 4 = result.toNat
        | .s2hMany => u.mem.read s.params.endian (t.dst + i * 2) 2 = (result.extractLsb' 0 16).toNat)

/-- Derived from 41_bulk_simd_conversion.md R121: a bulk request is idempotent. Done once more, with nothing changed in
between, it leaves the same memory, and where it was answered OK it is answered OK again. -/
def Obligations.BulkRequestIsIdempotent : Prop :=
  ∀ (s u : State) (t : Transfer),
    (⟨s.requester, t⟩ : Flight) ∈ s.flights → t.sound s.params → s.mem.wf → exec t.instr s = .next u →
    ∃ v, exec t.instr { u with flights := u.flights ++ [⟨u.requester, t⟩] } = .next v ∧ v.mem = u.mem ∧
      (u.responses = ⟨s.requester, 0, 0⟩ :: s.responses → v.responses = ⟨s.requester, 0, 0⟩ :: u.responses)

/-- Derived from 41_bulk_simd_conversion.md R122: two bulk requests in flight commute. Completed in either order they
leave the same memory. -/
def Obligations.RequestsInFlightCommute : Prop :=
  ∀ (s : State) (f g : Flight), s.Inv → f ∈ s.flights → g ∈ s.flights → f ≠ g →
    (∀ k, k = f ∨ k = g → s.admitsSpan k.transfer.srcRead = true ∧ s.admitsSpan k.transfer.dstWritten = true) →
    ∃ a b c d : State,
      exec f.transfer.instr { s with requester := f.requester } = .next a ∧
      exec g.transfer.instr { a with requester := g.requester } = .next b ∧
      exec g.transfer.instr { s with requester := g.requester } = .next c ∧
      exec f.transfer.instr { c with requester := f.requester } = .next d ∧
      b.mem = d.mem

/-- Derived from 41_bulk_simd_conversion.md R116 to R118 and 60_exceptions.md R149: a bulk request sent alone runs in two
steps, from its words to its response. -/
def Obligations.BulkRequestRunsInTwoSteps : Prop :=
  ∀ (s : State) (agent : Nat) (t : Transfer),
    s.recordedFault = none → s.flights = [] → s.inputs = [.send agent (encode s.params t.instr)] →
    t.instr.wellFormed s.params = true → t.sound s.params → s.mem.wf →
    (s.cap = true ∨ (t.op = .h2sMany ∧ s.params.h2sManyGated = false)) →
    s.admitsSpan t.srcRead = true → s.admitsSpan t.dstWritten = true →
    ∃ m : Memory,
      Host.Core.run core 2 s = .next { s with
        requester := agent
        inputs := []
        mem := m
        responses := ⟨agent, 0, 0⟩ :: s.responses } ∧
      (∀ i, i < min t.srcLen t.dstLen →
        m.read s.params.endian (t.dst + i * t.op.desize) t.op.desize =
          t.op.convert s.params (s.mem.read s.params.endian (t.src + i * t.op.sesize) t.op.sesize)) ∧
      ∀ a, a < t.dst ∨ t.dst + min t.srcLen t.dstLen * t.op.desize ≤ a → m.readByte a = s.mem.readByte a

/-- Derived from 70_reset_and_hazards.md R167 (log 5): every request that is not stuck on memory is answered, whatever
requests are stuck beside it. Where the host has no move that can happen, as many steps as there are requests in flight
over admitted memory answer each of them with `(0, 0)`, and leave those that are stuck. -/
def Obligations.EveryRequestInFlightIsAnswered : Prop :=
  ∀ s : State, s.recordedFault = none → s.nextMove = none →
    let able := s.flights.filter (fun f => s.admitsTransfer f.transfer)
    ∃ t : State, Host.Core.run core able.length s = .next t ∧
      t.flights = s.flights.filter (fun f => !s.admitsTransfer f.transfer) ∧
      t.responses = (able.map (fun f => (⟨f.requester, 0, 0⟩ : Response))).reverse ++ s.responses

/-! ## Races, reset, and the whole machine -/

/-- Derived from 70_reset_and_hazards.md R165 and 20_memory.md R51: while a bulk request is in flight, a write by another
agent that touches its source prefix, or a read or write that touches its destination prefix, is a BufferRace. The spec
gives host accesses no order of stops: that the access is a race whether or not the host admits its bytes is the model's
choice, log 25. -/
def Obligations.AccessToAnInFlightBufferIsARace : Prop :=
  ∀ (s : State) (f : Flight) (agent addr a : Nat) (bytes : List Byte) (len : Nat) (later : List Input),
    s.recordedFault = none → f ∈ s.flights → (∀ g ∈ s.flights, g.requester ≠ agent) →
    (s.inputs = .hostWrite agent addr bytes :: later →
      addr + bytes.length ≤ 2 ^ s.params.addrWidth →
      addr ≤ a ∧ a < addr + bytes.length → f.transfer.srcRead.contains a ∨ f.transfer.dstWritten.contains a →
      step s = .fault .bufferRace) ∧
    (s.inputs = .hostRead agent addr len :: later →
      addr + len ≤ 2 ^ s.params.addrWidth →
      addr ≤ a ∧ a < addr + len → f.transfer.dstWritten.contains a →
      step s = .fault .bufferRace)

/-- Derived from 20_memory.md R51: an access of a host agent that touches no in-flight buffer in that way is no race; it
happens, and stores its bytes and nothing else. -/
def Obligations.RaceFreeHostAccessHappens : Prop :=
  ∀ (s : State) (agent addr : Nat) (bytes : List Byte) (len : Nat) (later : List Input),
    s.recordedFault = none → (∀ g ∈ s.flights, g.requester ≠ agent) →
    (s.inputs = .hostWrite agent addr bytes :: later →
      addr + bytes.length ≤ 2 ^ s.params.addrWidth → s.admitsSpan ⟨addr, bytes.length⟩ = true →
      (∀ f ∈ s.flights, ∀ a, addr ≤ a → a < addr + bytes.length →
        f.transfer.srcRead.contains a = false ∧ f.transfer.dstWritten.contains a = false) →
      step s = .next { s with mem := s.mem.writeBytes addr bytes, inputs := later }) ∧
    (s.inputs = .hostRead agent addr len :: later →
      addr + len ≤ 2 ^ s.params.addrWidth → s.admitsSpan ⟨addr, len⟩ = true →
      (∀ f ∈ s.flights, ∀ a, addr ≤ a → a < addr + len → f.transfer.dstWritten.contains a = false) →
      step s = .next { s with inputs := later })

/-- Derived from 92_eei_decisions.md D15 and 20_memory.md R47 (the model's reading, log 9, log 25): an access of a host
agent that races with nothing and touches a byte the host does not admit is stuck: it does not happen, and stays. -/
def Obligations.UnadmittedHostAccessDoesNotHappen : Prop :=
  ∀ (s : State) (agent addr : Nat) (bytes : List Byte) (len : Nat),
    s.recordedFault = none → (∀ g ∈ s.flights, g.requester ≠ agent ∧ s.admitsTransfer g.transfer = false) →
    (s.inputs = [.hostWrite agent addr bytes] →
      addr + bytes.length ≤ 2 ^ s.params.addrWidth → s.admitsSpan ⟨addr, bytes.length⟩ = false →
      (∀ f ∈ s.flights, ∀ a, addr ≤ a → a < addr + bytes.length →
        f.transfer.srcRead.contains a = false ∧ f.transfer.dstWritten.contains a = false) →
      step s = .next s) ∧
    (s.inputs = [.hostRead agent addr len] →
      addr + len ≤ 2 ^ s.params.addrWidth → s.admitsSpan ⟨addr, len⟩ = false →
      (∀ f ∈ s.flights, ∀ a, addr ≤ a → a < addr + len → f.transfer.dstWritten.contains a = false) →
      step s = .next s)

/-- 70_reset_and_hazards.md R160: reset of the block changes no architectural state: with no request in flight nothing
changes but that the reset has happened, and after any reset the block has nothing in flight. -/
def Obligations.ResetChangesNoState : Prop :=
  ∀ (s : State) (later : List Input), s.recordedFault = none → s.inputs = .resetBlock :: later →
    (s.flights = [] → step s = .next { s with inputs := later }) ∧
    ∃ t, step s = .next t ∧ t.flights = []

/-- 70_reset_and_hazards.md R161: a reset abandons every request in flight without a response. Each byte of each
destination prefix holds a free draw of its own; every other byte of memory is unchanged. -/
def Obligations.ResetAbandonsRequestsInFlight : Prop :=
  ∀ (s : State) (later : List Input), s.Inv → s.recordedFault = none → s.inputs = .resetBlock :: later →
    ∃ t : State, step s = .next t ∧ t.flights = [] ∧ t.responses = s.responses ∧
      (∀ a, (∀ f ∈ s.flights, f.transfer.dstWritten.contains a = false) → t.mem.readByte a = s.mem.readByte a) ∧
      ∃ draw : Nat → Nat,
        (∀ f ∈ s.flights, ∀ a, f.transfer.dstWritten.contains a = true →
          t.mem.readByte a = Config.freeByte (draw a) ∧ s.freeDraws ≤ draw a ∧ draw a < t.freeDraws) ∧
        ∀ f ∈ s.flights, ∀ g ∈ s.flights, ∀ a b, f.transfer.dstWritten.contains a = true →
          g.transfer.dstWritten.contains b = true → draw a = draw b → a = b

/-- Derived from 10_state.md R31, 00_scope.md R6 and 70_reset_and_hazards.md R160: after reset nothing is in flight, no
response is held and no fault recorded, and the block is ready: the first request, whichever it is and whoever sends it,
does what the rules give. A scalar request is answered with its result. A bulk request with good buffers whose gate passes
is in flight after one step and answered `(0, 0)` after two; with CAP as State.reset has it, `S2H.MANY` is turned away
with `(1, 0)` in its first step. The model's choices: the parameters stand in the state at their defaults (log 1), CAP is
false until it is driven (log 4), every byte is admitted (log 9), the lists are empty (log 20), and a request whose gate
fails is answered in its start step and is never in flight (log 26). -/
def Obligations.ReadyAfterReset : Prop :=
  State.reset.flights = [] ∧ State.reset.responses = [] ∧ State.reset.recordedFault = none ∧
  State.reset.params = ⟨2, 16, .little, false, .ruleDefault, .ruleDefault⟩ ∧
  State.reset.params.addrWidth = 64 ∧
  ∀ agent : Nat,
    let sent (cap : Bool) (i : Instr) : State :=
      { State.reset with cap := cap, inputs := [.send agent (encode State.reset.params i)] }
    let after (cap : Bool) : State := { State.reset with cap := cap, requester := agent }
    (∀ (cap : Bool) (h : Half),
      step (sent cap (.h2s h)) = .next { after cap with responses := [⟨agent, 0, h2s .ruleDefault h⟩] }) ∧
    (∀ (cap : Bool) (x : Single),
      step (sent cap (.s2h x)) = .next { after cap with responses := [⟨agent, 0, (s2h .ruleDefault x).setWidth 32⟩] }) ∧
    ∀ t : Transfer, t.instr.wellFormed State.reset.params = true → t.sound State.reset.params →
      (∀ cap : Bool, t.op = .h2sMany ∨ cap = true →
        step (sent cap t.instr) = .next { after cap with flights := [⟨agent, t⟩] } ∧
        ∃ m : Memory, Host.Core.run core 2 (sent cap t.instr) =
          .next { after cap with mem := m, responses := [⟨agent, 0, 0⟩] }) ∧
      (t.op = .s2hMany → step (sent false t.instr) = .next { after false with responses := [⟨agent, 1, 0⟩] })

/-- Derived from the rules that `State.Inv` names: the invariant holds after reset. -/
def Obligations.InvariantHoldsAtReset : Prop := State.reset.Inv

/-- Derived from 20_memory.md R40, R43, R46, R48, R50, R51 and 60_exceptions.md R143: every step keeps the invariant:
memory stays canonical and inside the address space, every request in flight has good buffers, requests in flight
belong to different requesters and conflict nowhere, every response has one of the three statuses. -/
def Obligations.StepKeepsTheInvariant : Prop :=
  ∀ s t : State, s.Inv → step s = .next t → t.Inv

/-- Derived from 20_memory.md R51, R52 and 41_bulk_simd_conversion.md R113: while a bulk request stays in flight, whatever
the host and other requests do, no byte of its source prefix and none of its destination prefix changes. So the source
elements that the completion step reads are those the request started with. -/
def Obligations.BuffersInFlightAreStable : Prop :=
  ∀ (s t : State) (f : Flight), s.Inv → step s = .next t → f ∈ s.flights → f ∈ t.flights →
    ∀ a, f.transfer.srcRead.contains a = true ∨ f.transfer.dstWritten.contains a = true →
      t.mem.readByte a = s.mem.readByte a

/-- 60_exceptions.md R143: status codes from 3 on are never produced: every response a step returns has status 0, 1 or
2; and a decoder of responses takes exactly the codes from 3 on as impossible. -/
def Obligations.ReservedStatusesAreNeverProduced : Prop :=
  (∀ (s t : State) (r : Response), step s = .next t → r ∈ t.responses → r ∈ s.responses ∨ r.status.toNat ≤ 2) ∧
  ∀ w : Word, Status.ofCode w = none ↔ 3 ≤ w.toNat

/-- Derived from 10_state.md R24, R26 and 00_scope.md R6: no step changes a parameter, only the host drives CAP, and only
the host changes what memory is admitted. -/
def Obligations.OnlyTheHostDrivesItsLines : Prop :=
  ∀ s t : State, step s = .next t →
    t.params = s.params ∧
    (t.cap ≠ s.cap → ∃ level later, s.nextMove = some (.driveCap level, later)) ∧
    (t.unadmitted ≠ s.unadmitted → ∃ spans later, s.nextMove = some (.mapMemory spans, later))
end

