-- ==== Sys2Proof/Laws/Memory.lean ====
section
/-! SUPPORT. The laws of memory: what a store leaves at every address, and that every store keeps the canonical
form and adds no address but its own (spec 20_memory.md R42, R45). -/

namespace Sys2Proof.Machine

/-- A store leaves every other address alone. -/
theorem Memory.readByte_writeByte_ne (m : Memory) {a x : Nat} (b : Byte) (h : x ≠ a) :
    (m.writeByte a b).readByte x = m.readByte x := by
  induction m with
  | nil =>
    unfold Memory.writeByte
    split <;> simp [Memory.readByte, Ne.symm h]
  | cons c m ih =>
    obtain ⟨k, d⟩ := c
    unfold Memory.writeByte
    split_ifs with h1 h2 h3 h4
    · rfl
    · simp [Memory.readByte, Ne.symm h]
    · subst h3; simp [Memory.readByte, Ne.symm h]
    · subst h3; simp [Memory.readByte, Ne.symm h]
    · simp only [Memory.readByte]; rw [ih]

/-- Below the first listed address memory is unlisted. -/
theorem Memory.readByte_of_below {m : Memory} {a : Nat} (h : ∀ c ∈ m, a < c.1) : m.readByte a = unlistedByte := by
  induction m with
  | nil => rfl
  | cons c m ih =>
    have hc := h c (List.mem_cons_self ..)
    simp only [Memory.readByte]
    rw [if_neg (by omega)]
    exact ih (fun d hd => h d (List.mem_cons_of_mem _ hd))

/-- A store of a byte is read back. -/
theorem Memory.readByte_writeByte_eq {m : Memory} (hw : m.wf) (a : Nat) (b : Byte) :
    (m.writeByte a b).readByte a = b := by
  induction m with
  | nil =>
    unfold Memory.writeByte
    split
    · rename_i h; simp [Memory.readByte, h]
    · simp [Memory.readByte]
  | cons c m ih =>
    obtain ⟨k, d⟩ := c
    obtain ⟨hp, hn⟩ := hw
    rw [List.pairwise_cons] at hp
    have hm : Memory.wf m := ⟨hp.2, fun c hc => hn c (List.mem_cons_of_mem _ hc)⟩
    unfold Memory.writeByte
    split_ifs with h1 h2 h3 h4
    · rw [h2]
      apply Memory.readByte_of_below
      intro c hc
      rcases List.mem_cons.1 hc with rfl | hc
      · exact h1
      · exact lt_trans h1 (hp.1 c hc)
    · simp [Memory.readByte]
    · rw [h4]
      apply Memory.readByte_of_below
      intro c hc
      rw [h3]; exact hp.1 c hc
    · simp [Memory.readByte]
    · simp only [Memory.readByte]
      rw [if_neg (fun h => h3 h.symm), ih hm]

/-- A store lists no address but its own. -/
theorem Memory.mem_writeByte {m : Memory} {a : Nat} {b : Byte} {c : Host.Cell} (h : c ∈ m.writeByte a b) :
    c ∈ m ∨ c = (a, b) := by
  induction m with
  | nil =>
    unfold Memory.writeByte at h
    split at h
    · simp at h
    · simp at h; exact Or.inr h
  | cons d m ih =>
    obtain ⟨k, d⟩ := d
    unfold Memory.writeByte at h
    split_ifs at h with h1 h2 h3 h4
    · exact Or.inl h
    · rcases List.mem_cons.1 h with h | h
      · exact Or.inr h
      · exact Or.inl h
    · exact Or.inl (List.mem_cons_of_mem _ h)
    · rcases List.mem_cons.1 h with h | h
      · exact Or.inr h
      · exact Or.inl (List.mem_cons_of_mem _ h)
    · rcases List.mem_cons.1 h with h | h
      · exact Or.inl (by rw [h]; exact List.mem_cons_self ..)
      · rcases ih h with h | h
        · exact Or.inl (List.mem_cons_of_mem _ h)
        · exact Or.inr h

/-- A store keeps the canonical form. -/
theorem Memory.writeByte_wf {m : Memory} (hw : m.wf) (a : Nat) (b : Byte) : (m.writeByte a b).wf := by
  induction m with
  | nil =>
    unfold Memory.writeByte
    split
    · exact hw
    · rename_i h
      refine ⟨List.pairwise_singleton .., fun c hc => ?_⟩
      rw [List.mem_singleton.1 hc]; exact h
  | cons c m ih =>
    obtain ⟨k, d⟩ := c
    have hm : Memory.wf m := ⟨(List.pairwise_cons.1 hw.1).2, fun c hc => hw.2 c (List.mem_cons_of_mem _ hc)⟩
    have hk := (List.pairwise_cons.1 hw.1).1
    unfold Memory.writeByte
    split_ifs with h1 h2 h3 h4
    · exact hw
    · refine ⟨List.pairwise_cons.2 ⟨fun c hc => ?_, hw.1⟩, fun c hc => ?_⟩
      · rcases List.mem_cons.1 hc with rfl | hc
        · exact h1
        · exact lt_trans h1 (hk c hc)
      · rcases List.mem_cons.1 hc with rfl | hc
        · exact h2
        · exact hw.2 c hc
    · exact hm
    · refine ⟨List.pairwise_cons.2 ⟨fun c hc => by rw [h3]; exact hk c hc, hm.1⟩, fun c hc => ?_⟩
      rcases List.mem_cons.1 hc with rfl | hc
      · exact h4
      · exact hm.2 c hc
    · refine ⟨List.pairwise_cons.2 ⟨fun c hc => ?_, (ih hm).1⟩, fun c hc => ?_⟩
      · rcases Memory.mem_writeByte hc with hc | rfl
        · exact hk c hc
        · show k < a
          omega
      · rcases List.mem_cons.1 hc with rfl | hc
        · exact hw.2 _ (List.mem_cons_self ..)
        · exact (ih hm).2 c hc

/-- Two canonical memories that read alike everywhere are the same data. -/
theorem Memory.ext_of_readByte {m n : Memory} (hm : m.wf) (hn : n.wf) (h : ∀ a, m.readByte a = n.readByte a) : m = n := by
  induction m generalizing n with
  | nil =>
    cases n with
    | nil => rfl
    | cons d n =>
      have := h d.1
      simp only [Memory.readByte, if_pos] at this
      exact absurd this.symm (hn.2 d (List.mem_cons_self ..))
  | cons c m ih =>
    obtain ⟨k, x⟩ := c
    have hkm := (List.pairwise_cons.1 hm.1).1
    have hm' : Memory.wf m := ⟨(List.pairwise_cons.1 hm.1).2, fun c hc => hm.2 c (List.mem_cons_of_mem _ hc)⟩
    have hx : x ≠ unlistedByte := hm.2 (k, x) (List.mem_cons_self ..)
    cases n with
    | nil =>
      have := h k
      simp only [Memory.readByte, if_pos] at this
      exact absurd this hx
    | cons d n =>
      obtain ⟨l, y⟩ := d
      have hln := (List.pairwise_cons.1 hn.1).1
      have hn' : Memory.wf n := ⟨(List.pairwise_cons.1 hn.1).2, fun c hc => hn.2 c (List.mem_cons_of_mem _ hc)⟩
      have hy : y ≠ unlistedByte := hn.2 (l, y) (List.mem_cons_self ..)
      rcases lt_trichotomy k l with hkl | hkl | hkl
      · have := h k
        rw [Memory.readByte_of_below (m := (l, y) :: n) (a := k)] at this
        · simp only [Memory.readByte, if_pos] at this; exact absurd this hx
        · intro c hc
          rcases List.mem_cons.1 hc with rfl | hc
          · exact hkl
          · exact lt_trans hkl (hln c hc)
      · subst hkl
        have hxy : x = y := by
          have := h k
          simpa only [Memory.readByte, if_pos] using this
        subst hxy
        congr 1
        apply ih hm' hn'
        intro a
        by_cases ha : k = a
        · subst ha
          rw [Memory.readByte_of_below hkm, Memory.readByte_of_below hln]
        · have := h a
          simpa only [Memory.readByte, if_neg ha] using this
      · have := h l
        rw [Memory.readByte_of_below (m := (k, x) :: m) (a := l)] at this
        · simp only [Memory.readByte, if_pos] at this; exact absurd this.symm hy
        · intro c hc
          rcases List.mem_cons.1 hc with rfl | hc
          · exact hkl
          · exact lt_trans hkl (hkm c hc)

/-! Stores of several bytes. -/

theorem Memory.writeBytes_wf {m : Memory} (hw : m.wf) (a : Nat) (bs : List Byte) : (m.writeBytes a bs).wf := by
  induction bs generalizing m a with
  | nil => exact hw
  | cons b bs ih => exact ih (Memory.writeByte_wf hw a b) (a + 1)

theorem Memory.readByte_writeBytes_outside (m : Memory) {a x : Nat} (bs : List Byte)
    (h : x < a ∨ a + bs.length ≤ x) : (m.writeBytes a bs).readByte x = m.readByte x := by
  induction bs generalizing m a with
  | nil => rfl
  | cons b bs ih =>
    rw [List.length_cons] at h
    rw [Memory.writeBytes, ih (m.writeByte a b) (by omega)]
    exact Memory.readByte_writeByte_ne m b (by omega)

theorem Memory.mem_writeBytes {m : Memory} {a : Nat} {bs : List Byte} {c : Host.Cell} (h : c ∈ m.writeBytes a bs) :
    c ∈ m ∨ (a ≤ c.1 ∧ c.1 < a + bs.length) := by
  induction bs generalizing m a with
  | nil => exact Or.inl h
  | cons b bs ih =>
    rw [List.length_cons]
    rcases ih h with h | h
    · rcases Memory.mem_writeByte h with h | rfl
      · exact Or.inl h
      · exact Or.inr ⟨le_refl _, by simp⟩
    · exact Or.inr ⟨by omega, by omega⟩

/-- The byte a store of several bytes leaves at each of its addresses. -/
theorem Memory.readByte_writeBytes_inside {m : Memory} (hw : m.wf) (a : Nat) (bs : List Byte) {i : Nat}
    (h : i < bs.length) : (m.writeBytes a bs).readByte (a + i) = bs[i] := by
  induction bs generalizing m a i with
  | nil => exact absurd h (by simp)
  | cons b bs ih =>
    rw [Memory.writeBytes]
    cases i with
    | zero =>
      rw [Memory.readByte_writeBytes_outside _ _ (by omega)]
      exact Memory.readByte_writeByte_eq hw a b
    | succ i =>
      have := ih (Memory.writeByte_wf hw a b) (a + 1) (i := i) (by simpa using h)
      rw [show a + (i + 1) = a + 1 + i by omega, this]
      rfl

theorem Memory.writeFree_wf {m : Memory} (hw : m.wf) (a k n : Nat) : (m.writeFree a k n).wf := by
  induction n generalizing m a k with
  | zero => exact hw
  | succ n ih => exact ih (Memory.writeByte_wf hw a _) (a + 1) (k + 1)

theorem Memory.readByte_writeFree_outside (m : Memory) {a x : Nat} (k n : Nat) (h : x < a ∨ a + n ≤ x) :
    (m.writeFree a k n).readByte x = m.readByte x := by
  induction n generalizing m a k with
  | zero => rfl
  | succ n ih =>
    rw [Memory.writeFree, ih (m.writeByte a _) (k + 1) (by omega)]
    exact Memory.readByte_writeByte_ne m _ (by omega)

theorem Memory.mem_writeFree {m : Memory} {a k n : Nat} {c : Host.Cell} (h : c ∈ m.writeFree a k n) :
    c ∈ m ∨ (a ≤ c.1 ∧ c.1 < a + n) := by
  induction n generalizing m a k with
  | zero => exact Or.inl h
  | succ n ih =>
    rcases ih h with h | h
    · rcases Memory.mem_writeByte h with h | rfl
      · exact Or.inl h
      · exact Or.inr ⟨le_refl _, by simp⟩
    · exact Or.inr ⟨by omega, by omega⟩

/-! Elements. -/

@[simp] theorem splitBytes_length (n v : Nat) : (splitBytes n v).length = n := by
  induction n generalizing v with
  | zero => rfl
  | succ n ih => rw [splitBytes, List.length_cons, ih]

theorem Memory.write_wf {m : Memory} (hw : m.wf) (e : Endian) (a n v : Nat) : (m.write e a n v).wf := by
  cases e <;> exact Memory.writeBytes_wf hw a _

theorem Memory.readByte_write_outside (m : Memory) (e : Endian) {a x : Nat} (n v : Nat) (h : x < a ∨ a + n ≤ x) :
    (m.write e a n v).readByte x = m.readByte x := by
  cases e <;> exact Memory.readByte_writeBytes_outside m _ (by simpa using h)

theorem Memory.mem_write {m : Memory} {e : Endian} {a n v : Nat} {c : Host.Cell} (h : c ∈ m.write e a n v) :
    c ∈ m ∨ (a ≤ c.1 ∧ c.1 < a + n) := by
  cases e <;> simpa using Memory.mem_writeBytes h

theorem Memory.readBytes_congr {m k : Memory} {a n : Nat} (h : ∀ x, a ≤ x → x < a + n → m.readByte x = k.readByte x) :
    m.readBytes a n = k.readBytes a n := by
  induction n generalizing a with
  | zero => rfl
  | succ n ih =>
    simp only [Memory.readBytes]
    rw [h a (le_refl _) (by omega), ih (fun x h1 h2 => h x (by omega) (by omega))]

/-- An element depends on its own bytes alone. -/
theorem Memory.read_congr {m k : Memory} (e : Endian) {a n : Nat}
    (h : ∀ x, a ≤ x → x < a + n → m.readByte x = k.readByte x) : m.read e a n = k.read e a n := by
  cases e <;> simp only [Memory.read, Memory.readBytes_congr h]

end Sys2Proof.Machine
end

