-- ==== Sys2Proof/Laws/Bulk.lean ====
section
/-! SUPPORT. What the conversion of a transfer leaves: only bytes of its destination elements change, the canonical
form stays, and no address outside those elements is listed anew (spec 20_memory.md R49, 41_bulk_simd_conversion.md R118). -/

namespace Sys2Proof.Machine

@[simp] theorem BulkOp.sesize_pos (op : BulkOp) : 0 < op.sesize := by cases op <;> decide

@[simp] theorem BulkOp.desize_pos (op : BulkOp) : 0 < op.desize := by cases op <;> decide

/-- The two halves of an overlap test, as the inequalities of 41_bulk_simd_conversion.md R118. -/
theorem Span.overlaps_eq_false {r q : Span} :
    r.overlaps q = false ↔ r.size = 0 ∨ q.size = 0 ∨ q.base + q.size ≤ r.base ∨ r.base + r.size ≤ q.base := by
  unfold Span.overlaps
  simp only [Bool.and_eq_false_iff, decide_eq_false_iff_not]
  omega

theorem Span.overlaps_comm (r q : Span) : r.overlaps q = q.overlaps r := by
  rw [Bool.eq_iff_iff]
  unfold Span.overlaps
  simp only [Bool.and_eq_true, decide_eq_true_eq]
  omega

/-- Two ranges that share a byte overlap. -/
theorem Span.overlaps_of_contains {r q : Span} {a : Nat} (hr : r.contains a = true) (hq : q.contains a = true) :
    r.overlaps q = true := by
  simp only [Span.contains, Span.overlaps, Bool.and_eq_true, decide_eq_true_eq] at *
  omega

theorem Transfer.conflicts_comm (t u : Transfer) : t.conflicts u = u.conflicts t := by
  unfold Transfer.conflicts
  rw [Span.overlaps_comm t.dstWritten u.dstWritten, Span.overlaps_comm t.dstWritten u.srcRead,
    Span.overlaps_comm t.srcRead u.dstWritten, Bool.or_assoc, Bool.or_assoc,
    Bool.or_comm (u.srcRead.overlaps t.dstWritten)]

/-- The three memory preconditions, where none fails (20_memory.md R43, R46, R48). -/
theorem Transfer.precondition_eq_none {p : Params} {t : Transfer} :
    t.precondition p = none ↔
      (t.src % t.op.sesize = 0 ∧ t.dst % t.op.desize = 0) ∧
      (t.srcDeclared.fits p.addrLimit = true ∧ t.dstDeclared.fits p.addrLimit = true) ∧
      t.srcDeclared.overlaps t.dstDeclared = false := by
  unfold Transfer.precondition
  split_ifs with h1 h2 h3
  · simp only [false_iff]; tauto
  · simp only [false_iff]; tauto
  · simp [h3]
  · simp only [true_iff]
    refine ⟨by tauto, by tauto, by simpa using h3⟩

/-- The bytes a sound transfer writes lie in the address space. -/
theorem Transfer.dstWritten_fits {p : Params} {t : Transfer} (h : t.precondition p = none) :
    t.dstWritten.base + t.dstWritten.size ≤ p.addrLimit := by
  have hfit := of_decide_eq_true (Transfer.precondition_eq_none.1 h).2.1.2
  have hle : t.count * t.op.desize ≤ t.dstLen * t.op.desize := Nat.mul_le_mul_right _ (Nat.min_le_right _ _)
  simp only [Transfer.dstDeclared, Transfer.dstWritten] at *
  omega

/-- `m'` differs from `m` in bytes of `r` alone, is canonical where `m` is, and lists no other address anew. -/
structure Memory.ChangesOnly (r : Span) (m m' : Memory) : Prop where
  outside : ∀ x, x < r.base ∨ r.base + r.size ≤ x → m'.readByte x = m.readByte x
  canonical : Memory.wf m → Memory.wf m'
  listed : ∀ c ∈ m', c ∈ m ∨ (r.base ≤ c.1 ∧ c.1 < r.base + r.size)

theorem Memory.ChangesOnly.refl (r : Span) (m : Memory) : Memory.ChangesOnly r m m :=
  ⟨fun _ _ => rfl, id, fun _ h => Or.inl h⟩

theorem Memory.ChangesOnly.trans {r : Span} {a b c : Memory} (h : Memory.ChangesOnly r a b)
    (k : Memory.ChangesOnly r b c) : Memory.ChangesOnly r a c :=
  ⟨fun x hx => (k.outside x hx).trans (h.outside x hx), fun w => k.canonical (h.canonical w), fun d hd =>
    (k.listed d hd).elim (fun hd => h.listed d hd) Or.inr⟩

/-- A store to destination element `i < n`. -/
theorem Transfer.store_changesOnly (p : Params) (t : Transfer) (m : Memory) {i : Nat} (v : Nat) (h : i < t.count) :
    Memory.ChangesOnly t.dstWritten m (t.store p m i v) := by
  have hle : (i + 1) * t.op.desize ≤ t.count * t.op.desize := Nat.mul_le_mul_right _ h
  rw [Nat.add_mul, Nat.one_mul] at hle
  refine ⟨fun x hx => Memory.readByte_write_outside m _ _ _ ?_, fun w => Memory.write_wf w _ _ _ _, fun c hc => ?_⟩
  · simp only [Transfer.dstWritten, Transfer.dstAddr] at *; omega
  · rcases Memory.mem_write hc with hc | hc
    · exact Or.inl hc
    · simp only [Transfer.dstWritten, Transfer.dstAddr] at *; exact Or.inr (by omega)

theorem Transfer.storeFrom_changesOnly (p : Params) (t : Transfer) (m : Memory) (i : Nat) (vs : List Nat)
    (h : i + vs.length ≤ t.count) : Memory.ChangesOnly t.dstWritten m (t.storeFrom p m i vs) := by
  induction vs generalizing m i with
  | nil => exact Memory.ChangesOnly.refl _ _
  | cons v vs ih =>
    rw [List.length_cons] at h
    exact (t.store_changesOnly p m v (by omega)).trans (ih _ (i + 1) (by omega))

theorem Transfer.runBatches_changesOnly (p : Params) (t : Transfer) (m : Memory) (k : Nat)
    (h : k * p.batch ≤ t.count) : Memory.ChangesOnly t.dstWritten m (t.runBatches p m k) := by
  induction k with
  | zero => exact Memory.ChangesOnly.refl _ _
  | succ k ih =>
    rw [Nat.add_mul, Nat.one_mul] at h
    refine (ih (by omega)).trans ?_
    exact t.storeFrom_changesOnly p _ _ _ (by simpa using h)

theorem Transfer.runTail_changesOnly (p : Params) (t : Transfer) (m : Memory) (first k : Nat)
    (h : first + k ≤ t.count) : Memory.ChangesOnly t.dstWritten m (t.runTail p m first k) := by
  induction k with
  | zero => exact Memory.ChangesOnly.refl _ _
  | succ k ih => exact (ih (by omega)).trans (t.store_changesOnly p _ _ (by omega))

/-- The whole conversion changes bytes of destination elements `0 .. n - 1` alone. -/
theorem Transfer.run_changesOnly (p : Params) (t : Transfer) (m : Memory) :
    Memory.ChangesOnly t.dstWritten m (t.run p m) := by
  have hm : t.count % p.batch ≤ t.count := Nat.mod_le _ _
  exact (t.runBatches_changesOnly p m _ (Nat.div_mul_le_self _ _)).trans
    (t.runTail_changesOnly p _ _ _ (by omega))

end Sys2Proof.Machine
end

