-- ==== Sys2Proof/Laws/PerInstr.lean ====
section
/-! SUPPORT. Statements about every instruction as a term, one lemma per constructor of `Instr`. -/

namespace Sys2Proof

@[simp] theorem splitWords_length (k v : Nat) : (splitWords k v).length = k := by
  induction k generalizing v with
  | zero => rfl
  | succ k ih => rw [splitWords, List.length_cons, ih]

/-- Each row of 30_encoding.md R62 selects its own operation. -/
@[simp] theorem Opcode.ofHeader_header (op : Opcode) : Opcode.ofHeader op.header = some op := by cases op <;> decide

/-- The encoder's words are as many as the header calls for (spec 30_encoding.md R60, R66), and the header is the
operation's row of 30_encoding.md R62: it is not reserved, and the decoder reads the operation from it. -/
def Laws.EncodedShape.Statement (i : Instr) : Prop :=
  ∀ p : Params, (encode p i).length = i.opcode.requestWords p ∧
    (encode p i).head? = some i.opcode.header ∧ Opcode.ofHeader i.opcode.header = some i.opcode

theorem Laws.EncodedShape.h2s (h : Half) : Laws.EncodedShape.Statement (.h2s h) :=
  fun _ => ⟨rfl, rfl, Opcode.ofHeader_header _⟩

theorem Laws.EncodedShape.s2h (x : Single) : Laws.EncodedShape.Statement (.s2h x) :=
  fun _ => ⟨rfl, rfl, Opcode.ofHeader_header _⟩

theorem Laws.EncodedShape.h2sMany (dst dstLen src srcLen : Nat) :
    Laws.EncodedShape.Statement (.h2sMany dst dstLen src srcLen) := by
  refine fun p => ⟨?_, rfl, Opcode.ofHeader_header _⟩
  simp only [encode, Instr.operandWords, Instr.opcode, Opcode.requestWords, List.length_cons, List.length_append,
    splitWords_length]
  omega

theorem Laws.EncodedShape.s2hMany (dst dstLen src srcLen : Nat) :
    Laws.EncodedShape.Statement (.s2hMany dst dstLen src srcLen) := by
  refine fun p => ⟨?_, rfl, Opcode.ofHeader_header _⟩
  simp only [encode, Instr.operandWords, Instr.opcode, Opcode.requestWords, List.length_cons, List.length_append,
    splitWords_length]
  omega

end Sys2Proof
end

