-- ==== Sys2Proof/Laws/State.lean ====
section
/-! SUPPORT. What each update of the state leaves in each field, one lemma per field and update. -/

namespace Sys2Proof.Machine

/-! The response. -/

@[simp] theorem State.respond_params (s : State) (st : Status) (w : Word) :
    (s.respond st w).params = s.params := rfl

@[simp] theorem State.respond_mem (s : State) (st : Status) (w : Word) :
    (s.respond st w).mem = s.mem := rfl

@[simp] theorem State.respond_unadmitted (s : State) (st : Status) (w : Word) :
    (s.respond st w).unadmitted = s.unadmitted := rfl

@[simp] theorem State.respond_cap (s : State) (st : Status) (w : Word) :
    (s.respond st w).cap = s.cap := rfl

@[simp] theorem State.respond_requester (s : State) (st : Status) (w : Word) :
    (s.respond st w).requester = s.requester := rfl

@[simp] theorem State.respond_flights (s : State) (st : Status) (w : Word) :
    (s.respond st w).flights = s.flights := rfl

@[simp] theorem State.respond_inputs (s : State) (st : Status) (w : Word) :
    (s.respond st w).inputs = s.inputs := rfl

@[simp] theorem State.respond_responses (s : State) (st : Status) (w : Word) :
    (s.respond st w).responses = ⟨s.requester, st.code, w⟩ :: s.responses := rfl

@[simp] theorem State.respond_freeDraws (s : State) (st : Status) (w : Word) :
    (s.respond st w).freeDraws = s.freeDraws := rfl

@[simp] theorem State.respond_recordedFault (s : State) (st : Status) (w : Word) :
    (s.respond st w).recordedFault = s.recordedFault := rfl

/-! The answer to a reserved header. -/

@[simp] theorem State.respondIllegal_params (s : State) :
    (s.respondIllegal).params = s.params := rfl

@[simp] theorem State.respondIllegal_mem (s : State) :
    (s.respondIllegal).mem = s.mem := rfl

@[simp] theorem State.respondIllegal_unadmitted (s : State) :
    (s.respondIllegal).unadmitted = s.unadmitted := rfl

@[simp] theorem State.respondIllegal_cap (s : State) :
    (s.respondIllegal).cap = s.cap := rfl

@[simp] theorem State.respondIllegal_requester (s : State) :
    (s.respondIllegal).requester = s.requester := rfl

@[simp] theorem State.respondIllegal_flights (s : State) :
    (s.respondIllegal).flights = s.flights := rfl

@[simp] theorem State.respondIllegal_inputs (s : State) :
    (s.respondIllegal).inputs = s.inputs := rfl

@[simp] theorem State.respondIllegal_responses (s : State) :
    (s.respondIllegal).responses = ⟨s.requester, Status.illegalRequest.code, 0⟩ :: s.responses := rfl

@[simp] theorem State.respondIllegal_freeDraws (s : State) :
    (s.respondIllegal).freeDraws = s.freeDraws := rfl

@[simp] theorem State.respondIllegal_recordedFault (s : State) :
    (s.respondIllegal).recordedFault = some .illegalRequest := rfl

/-! The state a decoded request runs in. -/

@[simp] theorem State.fetched_params (s : State) (agent : Nat) (rest : List Word) (later : List Input) :
    (s.fetched agent rest later).params = s.params := rfl

@[simp] theorem State.fetched_mem (s : State) (agent : Nat) (rest : List Word) (later : List Input) :
    (s.fetched agent rest later).mem = s.mem := rfl

@[simp] theorem State.fetched_unadmitted (s : State) (agent : Nat) (rest : List Word) (later : List Input) :
    (s.fetched agent rest later).unadmitted = s.unadmitted := rfl

@[simp] theorem State.fetched_cap (s : State) (agent : Nat) (rest : List Word) (later : List Input) :
    (s.fetched agent rest later).cap = s.cap := rfl

@[simp] theorem State.fetched_requester (s : State) (agent : Nat) (rest : List Word) (later : List Input) :
    (s.fetched agent rest later).requester = agent := rfl

@[simp] theorem State.fetched_flights (s : State) (agent : Nat) (rest : List Word) (later : List Input) :
    (s.fetched agent rest later).flights = s.flights := rfl

@[simp] theorem State.fetched_inputs (s : State) (agent : Nat) (rest : List Word) (later : List Input) :
    (s.fetched agent rest later).inputs = if rest = [] then later else .send agent rest :: later := rfl

@[simp] theorem State.fetched_responses (s : State) (agent : Nat) (rest : List Word) (later : List Input) :
    (s.fetched agent rest later).responses = s.responses := rfl

@[simp] theorem State.fetched_freeDraws (s : State) (agent : Nat) (rest : List Word) (later : List Input) :
    (s.fetched agent rest later).freeDraws = s.freeDraws := rfl

@[simp] theorem State.fetched_recordedFault (s : State) (agent : Nat) (rest : List Word) (later : List Input) :
    (s.fetched agent rest later).recordedFault = s.recordedFault := rfl

/-! One request abandoned by a reset. -/

@[simp] theorem State.abandon_params (s : State) (f : Flight) :
    (s.abandon f).params = s.params := rfl

@[simp] theorem State.abandon_mem (s : State) (f : Flight) :
    (s.abandon f).mem = s.mem.writeFree f.transfer.dstWritten.base s.freeDraws f.transfer.dstWritten.size := rfl

@[simp] theorem State.abandon_unadmitted (s : State) (f : Flight) :
    (s.abandon f).unadmitted = s.unadmitted := rfl

@[simp] theorem State.abandon_cap (s : State) (f : Flight) :
    (s.abandon f).cap = s.cap := rfl

@[simp] theorem State.abandon_requester (s : State) (f : Flight) :
    (s.abandon f).requester = s.requester := rfl

@[simp] theorem State.abandon_flights (s : State) (f : Flight) :
    (s.abandon f).flights = s.flights := rfl

@[simp] theorem State.abandon_inputs (s : State) (f : Flight) :
    (s.abandon f).inputs = s.inputs := rfl

@[simp] theorem State.abandon_responses (s : State) (f : Flight) :
    (s.abandon f).responses = s.responses := rfl

@[simp] theorem State.abandon_freeDraws (s : State) (f : Flight) :
    (s.abandon f).freeDraws = s.freeDraws + f.transfer.dstWritten.size := rfl

@[simp] theorem State.abandon_recordedFault (s : State) (f : Flight) :
    (s.abandon f).recordedFault = s.recordedFault := rfl

/-! Every request abandoned by a reset, one after the other. -/

@[simp] theorem State.foldl_abandon_params (fs : List Flight) (s : State) :
    (fs.foldl State.abandon s).params = s.params := by
  induction fs generalizing s with
  | nil => rfl
  | cons f fs ih => rw [List.foldl_cons, ih, State.abandon_params]

@[simp] theorem State.foldl_abandon_unadmitted (fs : List Flight) (s : State) :
    (fs.foldl State.abandon s).unadmitted = s.unadmitted := by
  induction fs generalizing s with
  | nil => rfl
  | cons f fs ih => rw [List.foldl_cons, ih, State.abandon_unadmitted]

@[simp] theorem State.foldl_abandon_cap (fs : List Flight) (s : State) :
    (fs.foldl State.abandon s).cap = s.cap := by
  induction fs generalizing s with
  | nil => rfl
  | cons f fs ih => rw [List.foldl_cons, ih, State.abandon_cap]

@[simp] theorem State.foldl_abandon_requester (fs : List Flight) (s : State) :
    (fs.foldl State.abandon s).requester = s.requester := by
  induction fs generalizing s with
  | nil => rfl
  | cons f fs ih => rw [List.foldl_cons, ih, State.abandon_requester]

@[simp] theorem State.foldl_abandon_flights (fs : List Flight) (s : State) :
    (fs.foldl State.abandon s).flights = s.flights := by
  induction fs generalizing s with
  | nil => rfl
  | cons f fs ih => rw [List.foldl_cons, ih, State.abandon_flights]

@[simp] theorem State.foldl_abandon_inputs (fs : List Flight) (s : State) :
    (fs.foldl State.abandon s).inputs = s.inputs := by
  induction fs generalizing s with
  | nil => rfl
  | cons f fs ih => rw [List.foldl_cons, ih, State.abandon_inputs]

@[simp] theorem State.foldl_abandon_responses (fs : List Flight) (s : State) :
    (fs.foldl State.abandon s).responses = s.responses := by
  induction fs generalizing s with
  | nil => rfl
  | cons f fs ih => rw [List.foldl_cons, ih, State.abandon_responses]

@[simp] theorem State.foldl_abandon_recordedFault (fs : List Flight) (s : State) :
    (fs.foldl State.abandon s).recordedFault = s.recordedFault := by
  induction fs generalizing s with
  | nil => rfl
  | cons f fs ih => rw [List.foldl_cons, ih, State.abandon_recordedFault]

/-! Reset of the block. -/

@[simp] theorem State.resetBlock_params (s : State) : s.resetBlock.params = s.params :=
  State.foldl_abandon_params s.flights s

@[simp] theorem State.resetBlock_mem (s : State) :
    s.resetBlock.mem = (s.flights.foldl State.abandon s).mem := rfl

@[simp] theorem State.resetBlock_unadmitted (s : State) : s.resetBlock.unadmitted = s.unadmitted :=
  State.foldl_abandon_unadmitted s.flights s

@[simp] theorem State.resetBlock_cap (s : State) : s.resetBlock.cap = s.cap :=
  State.foldl_abandon_cap s.flights s

@[simp] theorem State.resetBlock_requester (s : State) : s.resetBlock.requester = s.requester :=
  State.foldl_abandon_requester s.flights s

@[simp] theorem State.resetBlock_flights (s : State) : s.resetBlock.flights = [] := rfl

@[simp] theorem State.resetBlock_inputs (s : State) : s.resetBlock.inputs = s.inputs :=
  State.foldl_abandon_inputs s.flights s

@[simp] theorem State.resetBlock_responses (s : State) : s.resetBlock.responses = s.responses :=
  State.foldl_abandon_responses s.flights s

@[simp] theorem State.resetBlock_freeDraws (s : State) :
    s.resetBlock.freeDraws = (s.flights.foldl State.abandon s).freeDraws := rfl

@[simp] theorem State.resetBlock_recordedFault (s : State) : s.resetBlock.recordedFault = s.recordedFault :=
  State.foldl_abandon_recordedFault s.flights s

end Sys2Proof.Machine
end

