-- ==== Sys2Proof/Laws/Step.lean ====
section
/-! SUPPORT. Everything exec and step can do, once: where they answer a next state, which one it is
(spec 60_exceptions.md R140, R149). -/

namespace Sys2Proof.Machine

/-- A bulk request is launched: the state in which it is in flight. -/
def State.launched (s : State) (t : Transfer) : State := { s with flights := s.flights ++ [⟨s.requester, t⟩] }

/-- A bulk request is completed: memory converted, the request no more in flight, and its response. -/
def State.completed (s : State) (t : Transfer) : State :=
  State.respond { s with mem := t.run s.params s.mem, flights := s.flights.erase ⟨s.requester, t⟩ } .ok 0

/-- What exec can make of a state. -/
inductive ExecChange (s : State) : State → Prop where
  /-- a scalar request, or a bulk request whose gate failed, is answered -/
  | answered (st : Status) (w : Word) : ExecChange s (s.respond st w)
  /-- a bulk request passed every check of its start step -/
  | launched (t : Transfer) (sound : t.precondition s.params = none)
      (clear : ∀ f ∈ s.flights, f.transfer.conflicts t = false) : ExecChange s (s.launched t)
  /-- a bulk request in flight is completed -/
  | completed (t : Transfer) (flying : (⟨s.requester, t⟩ : Flight) ∈ s.flights) : ExecChange s (s.completed t)
  /-- a bulk request in flight is stuck -/
  | stuck (t : Transfer) (flying : (⟨s.requester, t⟩ : Flight) ∈ s.flights)
      (barred : s.admitsTransfer t = false) : ExecChange s s

theorem bulkStart_next {t : Transfer} {s s' : State} (h : bulkStart t s = .next s') : ExecChange s s' := by
  unfold bulkStart at h
  split at h
  · cases h
  · rename_i hp
    split at h
    · cases h; exact .answered _ _
    · split at h
      · cases h
      · rename_i hc
        cases h
        refine .launched t hp fun f hf => ?_
        by_contra hne
        exact hc (List.any_eq_true.2 ⟨f, hf, by simpa using hne⟩)

/-- The completion step of a request over admitted memory. -/
theorem bulkComplete_of_admits {t : Transfer} {s : State} (h : s.admitsTransfer t = true) :
    bulkComplete t s = .next (s.completed t) := by
  unfold bulkComplete
  rw [h]
  rfl

/-- The completion step of a request that is stuck. -/
theorem bulkComplete_of_stuck {t : Transfer} {s : State} (h : s.admitsTransfer t = false) :
    bulkComplete t s = .next s := by
  unfold bulkComplete
  rw [h]
  rfl

/-- The start step of a sound request whose gate passes and which conflicts with nothing in flight. -/
theorem bulkStart_of_clear {t : Transfer} {s : State} (hp : t.precondition s.params = none)
    (hg : t.op.gated s.params = false ∨ s.cap = true) (hc : ∀ f ∈ s.flights, f.transfer.conflicts t = false) :
    bulkStart t s = .next (s.launched t) := by
  have hany : s.flights.any (fun f => f.transfer.conflicts t) = false :=
    List.any_eq_false.2 fun f hf => by rw [hc f hf]; decide
  unfold bulkStart
  rw [hp]
  simp only [hany]
  rw [if_neg (by rcases hg with h | h <;> simp [h])]
  rfl

theorem bulkStep_next {t : Transfer} {s s' : State} (h : bulkStep t s = .next s') : ExecChange s s' := by
  unfold bulkStep at h
  split at h
  · rename_i hf
    have hm : (⟨s.requester, t⟩ : Flight) ∈ s.flights := by simpa using hf
    cases ha : s.admitsTransfer t with
    | true => rw [bulkComplete_of_admits ha] at h; cases h; exact .completed t hm
    | false => rw [bulkComplete_of_stuck ha] at h; cases h; exact .stuck t hm ha
  · exact bulkStart_next h

/-- Everything exec can do. -/
theorem exec_next {i : Instr} {s s' : State} (h : exec i s = .next s') : ExecChange s s' := by
  cases i with
  | h2s x => cases h; exact .answered _ _
  | s2h x => cases h; exact .answered _ _
  | h2sMany dst dstLen src srcLen => exact bulkStep_next h
  | s2hMany dst dstLen src srcLen => exact bulkStep_next h

/-- exec changes neither what the host drives and admits nor what it will do, nor the parameters. -/
theorem ExecChange.keeps {s s' : State} (h : ExecChange s s') :
    s'.params = s.params ∧ s'.unadmitted = s.unadmitted ∧ s'.cap = s.cap ∧ s'.requester = s.requester ∧
    s'.inputs = s.inputs ∧ s'.freeDraws = s.freeDraws ∧ s'.recordedFault = s.recordedFault := by
  cases h <;> exact ⟨rfl, rfl, rfl, rfl, rfl, rfl, rfl⟩

/-- exec of a transfer's own request is the bulk step of that transfer. -/
@[simp] theorem exec_instr (t : Transfer) (s : State) : exec t.instr s = bulkStep t s := by
  obtain ⟨op, dst, dstLen, src, srcLen⟩ := t
  cases op <;> rfl

/-- A transfer that reads or writes a byte the host does not admit is stuck. -/
theorem State.admitsTransfer_of_barred {s : State} {t : Transfer} {q : Span} {a : Nat} (hq : q ∈ s.unadmitted)
    (ha : q.contains a = true) (h : t.srcRead.contains a = true ∨ t.dstWritten.contains a = true) :
    s.admitsTransfer t = false := by
  refine Bool.and_eq_false_iff.2 (h.imp ?_ ?_) <;>
    exact fun h => List.all_eq_false.2 ⟨q, hq, by rw [Span.overlaps_of_contains h ha]; decide⟩

/-! The next move. -/

/-- What `State.firstMove` finds: a move that can happen and whose agent no earlier move holds; every earlier move is
stuck or held; and nothing but the move found leaves the list. -/
theorem State.firstMove_eq_some {s : State} {held : List Nat} {moves later : List Input} {i : Input}
    (h : s.firstMove held moves = some (i, later)) :
    s.moveStuck i = false ∧ i.heldBy held = false ∧
    ∃ before after, moves = before ++ i :: after ∧ later = before ++ after ∧
      ∀ j ∈ before, i.waitsFor = none ∨ j.waitsFor ≠ i.waitsFor := by
  induction moves generalizing held later with
  | nil => cases h
  | cons j moves ih =>
    unfold State.firstMove at h
    split at h
    · obtain ⟨⟨k, rest⟩, hk, he⟩ := Option.map_eq_some_iff.1 h
      obtain ⟨rfl, rfl⟩ : k = i ∧ j :: rest = later := by simpa using he
      obtain ⟨h1, h2, before, after, h3, h4, h5⟩ := ih hk
      have hheld : k.heldBy held = false ∧ (k.waitsFor = none ∨ j.waitsFor ≠ k.waitsFor) := by
        unfold Input.heldBy at *
        cases hi : k.waitsFor with
        | none => exact ⟨rfl, Or.inl rfl⟩
        | some agent =>
          simp only [hi, List.contains_eq_mem, List.mem_append, Option.mem_toList, decide_eq_false_iff_not, not_or] at h2
          exact ⟨by simpa using h2.2, Or.inr h2.1⟩
      refine ⟨h1, hheld.1, j :: before, after, by rw [h3]; rfl, by rw [h4]; rfl, fun m hm => ?_⟩
      rcases List.mem_cons.1 hm with rfl | hm
      · exact hheld.2
      · exact h5 m hm
    · rename_i hn
      cases h
      simp only [Bool.or_eq_true, not_or, Bool.not_eq_true] at hn
      exact ⟨hn.1, hn.2, [], moves, rfl, rfl, fun m hm => absurd hm (by simp)⟩

/-- A move that can happen is found behind moves of other agents that are stuck. -/
theorem State.firstMove_of_stuck {s : State} {held : List Nat} {before after : List Input} {i : Input}
    (hb : ∀ j ∈ before, s.moveStuck j = true) (hi : s.moveStuck i = false) (hh : i.heldBy held = false)
    (ho : ∀ j ∈ before, i.waitsFor = none ∨ j.waitsFor ≠ i.waitsFor) :
    s.firstMove held (before ++ i :: after) = some (i, before ++ after) := by
  induction before generalizing held with
  | nil =>
    rw [List.nil_append, List.nil_append]
    unfold State.firstMove
    rw [hi, hh]
    rfl
  | cons j before ih =>
    have hhj : i.heldBy (j.waitsFor.toList ++ held) = false := by
      unfold Input.heldBy at *
      have := ho j (List.mem_cons_self ..)
      cases hw : i.waitsFor with
      | none => rfl
      | some agent =>
        rw [hw] at this hh
        simpa [List.contains_eq_mem, not_or] using ⟨by simpa using this, by simpa using hh⟩
    rw [List.cons_append]
    unfold State.firstMove
    rw [hb j (List.mem_cons_self ..), ih (fun k hk => hb k (List.mem_cons_of_mem _ hk)) hhj
      (fun k hk => ho k (List.mem_cons_of_mem _ hk))]
    rfl

/-- A first input that can happen is the next move. -/
theorem State.nextMove_of_head {s : State} {i : Input} {later : List Input} (hi : s.inputs = i :: later)
    (hs : s.moveStuck i = false) : s.nextMove = some (i, later) := by
  unfold State.nextMove
  rw [hi]
  refine State.firstMove_of_stuck (before := []) (by simp) hs ?_ (by simp)
  unfold Input.heldBy
  cases i.waitsFor <;> rfl

/-- What step can make of a state. -/
inductive StepChange (s : State) : State → Prop where
  /-- no move can be made and every request in flight is stuck -/
  | waited (noMove : s.nextMove = none) (barred : s.oldestAdmitted = none) : StepChange s s
  /-- a request in flight is completed for its requester; the inputs stay -/
  | answered (f : Flight) (flying : f ∈ s.flights) (admitted : s.admitsTransfer f.transfer = true) (s' : State)
      (done : s' = State.completed { s with requester := f.requester } f.transfer) : StepChange s s'
  /-- a request of a requester with nothing in flight runs -/
  | ran (agent : Nat) (words : List Word) (later : List Input) (i : Instr) (rest : List Word)
      (input : s.nextMove = some (.send agent words, later)) (decoded : decode s.params words = .request i rest)
      (idle : s.outstanding agent = none) (s' : State)
      (change : ExecChange (s.fetched agent rest later) s') : StepChange s s'
  /-- a reserved header is answered, and the fault recorded -/
  | illegal (agent : Nat) (words : List Word) (later : List Input) (rest : List Word)
      (input : s.nextMove = some (.send agent words, later)) (decoded : decode s.params words = .reserved rest) :
      StepChange s (s.fetched agent rest later).respondIllegal
  /-- an answer is called for where none is outstanding -/
  | passed (agent : Nat) (later : List Input) (input : s.nextMove = some (.answer agent, later)) :
      StepChange s { s with inputs := later }
  /-- the host drives CAP -/
  | drove (level : Bool) (later : List Input) (input : s.nextMove = some (.driveCap level, later)) :
      StepChange s { s with cap := level, inputs := later }
  /-- a host agent writes memory that no request in flight reads or writes -/
  | wrote (agent addr : Nat) (bytes : List Byte) (later : List Input)
      (input : s.nextMove = some (.hostWrite agent addr bytes, later))
      (inSpace : addr + bytes.length ≤ s.params.addrLimit)
      (clear : ∀ f ∈ s.flights, f.transfer.srcRead.overlaps ⟨addr, bytes.length⟩ = false ∧
        f.transfer.dstWritten.overlaps ⟨addr, bytes.length⟩ = false) :
      StepChange s { s with mem := s.mem.writeBytes addr bytes, inputs := later }
  /-- a host agent reads memory that no request in flight writes -/
  | looked (agent addr len : Nat) (later : List Input) (input : s.nextMove = some (.hostRead agent addr len, later)) :
      StepChange s { s with inputs := later }
  /-- the host changes what it admits -/
  | mapped (unadmitted : List Span) (later : List Input) (input : s.nextMove = some (.mapMemory unadmitted, later)) :
      StepChange s { s with unadmitted := unadmitted, inputs := later }
  /-- the block is reset -/
  | wasReset (later : List Input) (input : s.nextMove = some (.resetBlock, later)) :
      StepChange s (State.resetBlock { s with inputs := later })

/-- A request in flight is past its start: its next step is its completion. -/
theorem completeFlight_eq {f : Flight} {s : State} (hf : f ∈ s.flights) :
    completeFlight f s = bulkComplete f.transfer { s with requester := f.requester } := by
  unfold completeFlight
  rw [exec_instr]
  unfold bulkStep
  rw [if_pos (by simpa using hf)]

/-- A request in flight over admitted memory is completed. -/
theorem completeFlight_of_admits {f : Flight} {s : State} (hf : f ∈ s.flights)
    (ha : s.admitsTransfer f.transfer = true) :
    completeFlight f s = .next (State.completed { s with requester := f.requester } f.transfer) := by
  rw [completeFlight_eq hf]
  exact bulkComplete_of_admits ha

theorem completeFlight_next {f : Flight} {s s' : State} (hf : f ∈ s.flights)
    (ha : s.admitsTransfer f.transfer = true) (h : completeFlight f s = .next s') : StepChange s s' := by
  rw [completeFlight_of_admits hf ha] at h
  cases h
  exact .answered f hf ha _ rfl

theorem hostAccess_next {r : Span} {races : Bool} {done s s' : State} (h : hostAccess r races done s = .next s') :
    r.base + r.size ≤ s.params.addrLimit ∧ races = false ∧ s' = done := by
  unfold hostAccess at h
  split at h
  · cases h
  · rename_i hfit
    split at h
    · cases h
    · rename_i hr
      cases h
      exact ⟨by simpa [Span.fits] using hfit, by simpa using hr, rfl⟩

theorem State.outstanding_mem {s : State} {agent : Nat} {f : Flight} (h : s.outstanding agent = some f) :
    f ∈ s.flights := List.mem_of_find?_eq_some h

/-- A requester that waits for nothing has nothing in flight. -/
theorem State.outstanding_none {s : State} {agent : Nat} (h : s.outstanding agent = none) :
    ∀ f ∈ s.flights, f.requester ≠ agent := by
  intro f hf he
  have := List.find?_eq_none.1 h f hf
  simp [he] at this

/-- A requester with nothing in flight waits for nothing. -/
theorem State.outstanding_of_idle {s : State} {agent : Nat} (h : ∀ f ∈ s.flights, f.requester ≠ agent) :
    s.outstanding agent = none :=
  List.find?_eq_none.2 fun f hf => by simpa using h f hf

/-- A step with a move to make. -/
theorem step_of_move {s : State} {i : Input} {later : List Input} (hr : s.recordedFault = none)
    (hm : s.nextMove = some (i, later)) : step s = serveInput i later s := by
  unfold step advance
  rw [hr, hm]

/-- A step with no move to make. -/
theorem step_of_noMove {s : State} (hr : s.recordedFault = none) (hm : s.nextMove = none) :
    step s = serveOldest s := by
  unfold step advance
  rw [hr, hm]

theorem takeInput_next {i : Input} {later : List Input} {s s' : State} (hi : s.nextMove = some (i, later))
    (idle : ∀ a, i.waitsFor = some a → s.outstanding a = none)
    (h : takeInput i later s = .next s') : StepChange s s' := by
  cases i with
  | send agent words =>
    simp only [takeInput, serveWords] at h
    split at h
    · rename_i j rest hd
      exact .ran agent words later j rest hi hd (idle agent rfl) s' (exec_next h)
    · rename_i rest hd; cases h; exact .illegal agent words later rest hi hd
    · cases h
  | answer agent => cases h; exact .passed agent later hi
  | driveCap level => cases h; exact .drove level later hi
  | hostWrite agent addr bytes =>
    obtain ⟨h1, h2, rfl⟩ := hostAccess_next h
    refine .wrote agent addr bytes later hi h1 fun f hf => ?_
    have := List.any_eq_false.1 h2 f hf
    simpa using this
  | hostRead agent addr len =>
    obtain ⟨h1, h2, rfl⟩ := hostAccess_next h
    exact .looked agent addr len later hi
  | mapMemory unadmitted => cases h; exact .mapped unadmitted later hi
  | resetBlock => cases h; exact .wasReset later hi

/-- Everything step can do. -/
theorem step_next {s s' : State} (h : step s = .next s') : StepChange s s' ∧ s.recordedFault = none := by
  unfold step advance at h
  split at h
  · cases h
  · rename_i hr
    refine ⟨?_, hr⟩
    split at h
    · rename_i i later hi
      have hs := (State.firstMove_eq_some hi).1
      unfold serveInput at h
      unfold State.moveStuck at hs
      split at h
      · rename_i f hb
        obtain ⟨a, -, ha⟩ := Option.bind_eq_some_iff.1 hb
        rw [hb] at hs
        exact completeFlight_next (State.outstanding_mem ha) (by simpa using hs) h
      · rename_i hb
        refine takeInput_next hi (fun a ha => ?_) h
        rw [ha] at hb
        exact hb
    · rename_i hi
      unfold serveOldest at h
      split at h
      · rename_i f hf
        exact completeFlight_next (List.mem_of_find?_eq_some hf) (by simpa using List.find?_some hf) h
      · rename_i hf; cases h; exact .waited hi hf

/-- A run of any machine takes its first step and goes on from there. -/
theorem coreRun_of_step (M : Host.Core) (k : Nat) (s s' : M.State) (h : M.step s = .next s') :
    M.run (k + 1) s = M.run k s' := by
  simp only [Host.Core.run, h]

/-- A run takes its first step and goes on from there. -/
theorem run_of_step {s s' : State} (k : Nat) (h : step s = .next s') :
    Host.Core.run Sys2Proof.core (k + 1) s = Host.Core.run Sys2Proof.core k s' :=
  coreRun_of_step Sys2Proof.core k s s' h

end Sys2Proof.Machine
end

