-- ==== Sys2Proof/Tests/Slice0.lean ====
section
/-! SUPPORT. The model's own tests: small, one or two steps each. Expected results come from spec/95_test_vectors.md and
from the rules, never from the model. The witness theorems show states that meet a statement's hypotheses together. -/

namespace Sys2Proof.Machine

/-- The state of a step's answer, if it is a next state. -/
def nextOf : Host.Outcome State Fault Refusal → Option State
  | .next s => some s
  | .fault _ => none
  | .refused _ => none

/-- The fault of a step's answer, if it is one. -/
def faultOf : Host.Outcome State Fault Refusal → Option Fault
  | .next _ => none
  | .fault f => some f
  | .refused _ => none

/-- Requester 1's bulk request from 0x2000 to 0x1000, `n` elements each way. -/
def sampleTransfer (op : BulkOp) (n : Nat) : Transfer := ⟨op, 0x1000, n, 0x2000, n⟩

/-- Requester 1 before its bulk request, CAP driven, the binary16 element 0x3C00 (or the low half of a binary32
element) at 0x2000. -/
def sampleState : State :=
  { State.reset with requester := 1, cap := true, mem := [(0x2001, 0x3C)] }

/-- The same with the request in flight. -/
def flyingState (op : BulkOp) (n : Nat) : State :=
  { sampleState with flights := [⟨1, sampleTransfer op n⟩] }

/-! ## Well-formedness: each operand of each bulk request is refused at `2^64` and accepted just below. -/

theorem test_wellFormed_refuses_h2sMany :
    [Instr.h2sMany (2 ^ 64) 0 0 0, .h2sMany 0 (2 ^ 64) 0 0, .h2sMany 0 0 (2 ^ 64) 0, .h2sMany 0 0 0 (2 ^ 64)].all
      (fun i => i.wellFormed {} == false) = true := by decide

theorem test_wellFormed_refuses_s2hMany :
    [Instr.s2hMany (2 ^ 64) 0 0 0, .s2hMany 0 (2 ^ 64) 0 0, .s2hMany 0 0 (2 ^ 64) 0, .s2hMany 0 0 0 (2 ^ 64)].all
      (fun i => i.wellFormed {} == false) = true := by decide

theorem test_wellFormed_accepts :
    [Instr.h2s 0xFFFF, .s2h 0xFFFFFFFF, .h2sMany (2 ^ 64 - 1) (2 ^ 64 - 1) (2 ^ 64 - 1) (2 ^ 64 - 1),
      .s2hMany (2 ^ 64 - 1) (2 ^ 64 - 1) (2 ^ 64 - 1) (2 ^ 64 - 1)].all (fun i => i.wellFormed {}) = true := by decide

/-! ## Decoding: words written out from 30_encoding.md R61 to R64. -/

/-- R62 row OP = 1; R63: the upper half of the operand word is ignored (vector H28). -/
theorem test_decode_h2s :
    decode {} [0b0000_0000_0000_0000_0000_0000_0000_0001, 0xFFFF3C00] = .request (.h2s 0x3C00) [] := by decide

/-- R62 row OP = 2; R63: all 32 bits are the operand. -/
theorem test_decode_s2h :
    decode {} [0b0000_0000_0000_0000_0000_0000_0000_0010, 0x80000001] = .request (.s2h 0x80000001) [] := by decide

/-- R62 row OP = 3; R64: DST, DST_LEN, SRC, SRC_LEN, least significant word first. -/
theorem test_decode_h2sMany :
    decode {} [0b0000_0000_0000_0000_0000_0000_0000_0011, 1, 2, 3, 4, 5, 6, 7, 8, 9] =
      .request (.h2sMany 0x200000001 0x400000003 0x600000005 0x800000007) [9] := by decide

/-- R62 row OP = 4; at `ADDR_WIDTH` = 32 each operand is one word. -/
theorem test_decode_s2hMany :
    decode { addrWords := 1 } [0b0000_0000_0000_0000_0000_0000_0000_0100, 1, 2, 3, 4, 5] =
      .request (.s2hMany 1 2 3 4) [5] := by decide

/-- Rows E5 to E9 of 95_test_vectors.md, each with a word after the header that is not read. -/
theorem test_decode_reserved :
    [0x00000000, 0x00000005, 0x0000000F, 0x00000011, 0x80000002].all
      (fun w => decode {} [w, 7] == .reserved [7]) = true := by decide

/-- R60, R66: words that end inside a request are none. -/
theorem test_decode_truncated :
    [[], [1], [2], [3, 0, 0, 0, 0, 0, 0, 0], [4]].all (fun ws => decode {} ws == .truncated) = true := by decide

/-- R62: each row of the table, as the host numbers its bits, with operand words of zeros. -/
theorem test_decodeTableWord :
    decodeTableWord 32 1 = some (.h2s 0) ∧ decodeTableWord 32 2 = some (.s2h 0) ∧
    decodeTableWord 32 3 = some (.h2sMany 0 0 0 0) ∧ decodeTableWord 32 4 = some (.s2hMany 0 0 0 0) ∧
    decodeTableWord 32 5 = none := by decide

/-- R68: mnemonics in either case, and a literal that is too large. -/
theorem test_assemble :
    Opcode.ofMnemonic ['S', '2', 'h', '.', 'M', 'a', 'n', 'y'] = some .s2hMany ∧
    assemble {} .h2s [0x3C00] = some (.h2s 0x3C00) ∧ assemble {} .h2s [0x10000] = none ∧
    assemble {} .s2h [0x100000000] = none ∧ assemble {} .h2sMany [2 ^ 64, 0, 0, 0] = none := by decide

/-! ## Scalar operations -/

/-- Vectors H6, H2, H20 and, under the default map, H22. -/
theorem test_h2s_vectors :
    h2s .ruleDefault 0x03FF = 0x387FC000 ∧ h2s .ruleDefault 0x8000 = 0x80000000 ∧
    h2s .ruleDefault 0x7C00 = 0x7F800000 ∧ h2s .ruleDefault 0x7C01 = 0x7FC02000 := by decide

/-- Vector H28: the request as it is sent, by requester 5; `respond(0, result)` (40_scalar_conversion.md R86). -/
theorem test_h2s_step :
    (nextOf (step { State.reset with inputs := [.send 5 [1, 0xFFFF3C00]] })).map (fun s => (s.responses, s.inputs)) =
      some ([⟨5, 0, 0x3F800000⟩], []) := by decide

/-- Vectors S19, S35, S10, S44. -/
theorem test_s2h_vectors :
    s2h .ruleDefault 0x387FE000 = 0x0400 ∧ s2h .ruleDefault 0x477FF000 = 0x7C00 ∧
    s2h .ruleDefault 0xB3000001 = 0x8001 ∧ s2h .ruleDefault 0x7F800001 = 0x7E00 := by decide

/-- Vector S43: a negative NaN; RESULT[31:16] is 0 (30_encoding.md R65). -/
theorem test_s2h_step :
    (nextOf (exec (.s2h 0xFFC00000) State.reset)).map State.responses = some [⟨0, 0, 0x0000FE00⟩] := by decide

/-! ## Bulk operations -/

/-- The worked example of 41_bulk_simd_conversion.md R116: completion of one element, little-endian bytes. -/
theorem test_h2sMany_completes :
    (nextOf (exec (.h2sMany 0x1000 1 0x2000 1) (flyingState .h2sMany 1))).map (fun s => (s.mem, s.flights, s.responses)) =
      some ([(0x1002, 0x80), (0x1003, 0x3F), (0x2001, 0x3C)], [], [⟨1, 0, 0⟩]) := by decide

/-- Vector B8: a declared range that passes `2^64`; vector B8a: one that ends exactly there starts. -/
theorem test_h2sMany_wraps :
    faultOf (exec (.h2sMany 0xFFFFFFFFFFFFFFFC 2 0x2000 2) sampleState) = some .addressWrap ∧
    (nextOf (exec (.h2sMany 0xFFFFFFFFFFFFFFFC 1 0x2000 1) sampleState)).map (fun s => s.flights.length) = some 1 := by
  decide

/-- Vector B3, sent and served in two steps (60_exceptions.md R149). -/
theorem test_s2hMany_two_steps :
    (nextOf (Host.Core.run core 2 { sampleState with
        mem := [(0x2001, 0xE0), (0x2002, 0x7F), (0x2003, 0x47)]
        inputs := [.send 1 [4, 0x1000, 0, 1, 0, 0x2000, 0, 1, 0]] })).map (fun s => (s.mem.take 2, s.responses)) =
      some ([(0x1000, 0xFF), (0x1001, 0x7B)], [⟨1, 0, 0⟩]) := by decide

/-- Vectors B12, B13 and B4: overlap and misalignment before the gate, and the gate at n = 0, all with CAP = 0. -/
theorem test_s2hMany_order :
    faultOf (exec (.s2hMany 0x1000 4 0x1004 1) State.reset) = some .overlappingBuffers ∧
    faultOf (exec (.s2hMany 0x1000 4 0x2001 4) State.reset) = some .misalignedBuffer ∧
    (nextOf (exec (.s2hMany 0x1000 0 0x2000 0) State.reset)).map State.responses = some [⟨0, 1, 0⟩] := by decide

/-! ## Reserved headers, races, reset -/

/-- Row E6 of 95_test_vectors.md: `(2, 0)`, the next word stays, and the run ends. -/
theorem test_reserved_header :
    (nextOf (step { State.reset with inputs := [.send 3 [5, 1]] })).map
      (fun s => (s.responses, s.inputs, s.recordedFault, faultOf (step s))) =
      some ([⟨3, 2, 0⟩], [.send 3 [1]], some .illegalRequest, some .illegalRequest) := by decide

/-- 20_memory.md R51: a host write into the source prefix, or a host read of the destination prefix, races; a host read
of the source prefix does not; 20_memory.md R50: the requester itself waits. -/
theorem test_host_accesses :
    faultOf (step { flyingState .h2sMany 1 with inputs := [.hostWrite 2 0x2001 [0]] }) = some .bufferRace ∧
    faultOf (step { flyingState .h2sMany 1 with inputs := [.hostRead 2 0x1000 1] }) = some .bufferRace ∧
    (nextOf (step { flyingState .h2sMany 1 with inputs := [.hostRead 2 0x2000 2] })).map State.inputs = some [] ∧
    (nextOf (step { flyingState .h2sMany 1 with inputs := [.hostWrite 1 0x2001 [0]] })).map
      (fun s => (s.flights, s.inputs)) = some ([], [.hostWrite 1 0x2001 [0]]) := by decide

/-- 70_reset_and_hazards.md R161: no response, nothing in flight, four free bytes drawn. -/
theorem test_reset_in_flight :
    (nextOf (step { flyingState .h2sMany 1 with inputs := [.resetBlock] })).map
      (fun s => (s.flights, s.responses, s.freeDraws)) = some ([], [], 4) := by decide

/-! ## Witnesses: the hypotheses of the statements can be met together. -/

theorem witness_sound_transfers :
    (sampleTransfer .h2sMany 1).sound {} ∧ (sampleTransfer .s2hMany 1).sound {} ∧
    (sampleTransfer .s2hMany 0).sound {} := by decide

theorem witness_invariant (op : BulkOp) : (flyingState op 1).Inv :=
  { params := by cases op <;> decide
    canonical := by cases op <;> decide
    inSpace := by cases op <;> decide
    sound := by cases op <;> decide
    compatible := by cases op <;> decide
    statuses := by cases op <;> decide
    recorded := Or.inl rfl }

/-- EncodedRequestDecodesBack: a well-formed request of each format. -/
theorem witness_EncodedRequestDecodesBack :
    (Instr.h2s 0x3C00).wellFormed {} = true ∧ (Instr.s2hMany 0x1000 4 0x2000 5).wellFormed {} = true := by decide

/-- DecodedWordsAreTheEncoding, each constructor. -/
theorem witness_DecodedWordsAreTheEncoding :
    decode {} [1, 0xABCD1234, 9] = .request (.h2s 0x1234) [9] ∧ decode {} [2, 7] = .request (.s2h 7) [] ∧
    decode { addrWords := 1 } [3, 4, 1, 8, 1] = .request (.h2sMany 4 1 8 1) [] ∧
    decode { addrWords := 1 } [4, 4, 1, 8, 1] = .request (.s2hMany 4 1 8 1) [] := by decide

/-- RequestLengthFollowsFromHeader: each clause, at its boundary lengths. -/
theorem witness_RequestLengthFollowsFromHeader :
    ((1 : Word) = 1 ∨ (1 : Word) = 2) ∧ ((4 : Word) = 3 ∨ (4 : Word) = 4) ∧
    ([0, 0, 0, 0, 0, 0, 0] : List Word).length < 4 * (({} : Params).addrWidth / 32) ∧
    4 * (({} : Params).addrWidth / 32) ≤ ([0, 0, 0, 0, 0, 0, 0, 0] : List Word).length ∧
    (0 : Word) ≠ 1 ∧ (0 : Word) ≠ 2 ∧ (0 : Word) ≠ 3 ∧ (0 : Word) ≠ 4 := by decide

/-- AssemblerRefusesLargeLiterals: each clause, at the largest literal it takes and the smallest it refuses. -/
theorem witness_AssemblerRefusesLargeLiterals :
    assemble {} .h2s [2 ^ 16 - 1] = some (.h2s 0xFFFF) ∧ ¬ 2 ^ 16 < 2 ^ 16 ∧
    assemble {} .s2h [2 ^ 32 - 1] = some (.s2h 0xFFFFFFFF) ∧ ¬ 2 ^ 32 < 2 ^ 32 ∧
    assemble {} .h2sMany [2 ^ 64 - 1, 0, 0, 2 ^ 64 - 1] = some (.h2sMany (2 ^ 64 - 1) 0 0 (2 ^ 64 - 1)) ∧
    assemble {} .s2hMany [0, 2 ^ 64 - 1, 2 ^ 64 - 1, 0] = some (.s2hMany 0 (2 ^ 64 - 1) (2 ^ 64 - 1) 0) ∧
    2 ^ ({} : Params).addrWidth ≤ 2 ^ 64 ∧ ([] : List Nat).length ≠ 1 ∧ [1, 2, 3, 4, 5].length ≠ 4 := by decide

/-- MnemonicsNameTheOperations: each clause, in mixed case; a name that is none. -/
theorem witness_MnemonicsNameTheOperations :
    ['H', '2', 's'].map Char.toLower = ['h', '2', 's'] ∧ ['S', '2', 'H'].map Char.toLower = ['s', '2', 'h'] ∧
    Opcode.ofMnemonic ['H', '2', 'S', '.', 'm', 'a', 'n', 'Y'] = some .h2sMany ∧
    Opcode.ofMnemonic ['s', '2', 'h', '.', 'M', 'A', 'N', 'Y'] = some .s2hMany ∧
    Opcode.ofMnemonic ['h', '2', 's', '.'] = none := by decide

/-- StepRunsTheDecodedRequest, with another requester's bulk request in flight and words left over. -/
theorem witness_StepRunsTheDecodedRequest :
    let s := { flyingState .h2sMany 1 with inputs := [.send 2 [1, 0x3C00, 2, 0]] }
    s.recordedFault = none ∧ s.inputs = [.send 2 [1, 0x3C00, 2, 0]] ∧ (∀ f ∈ s.flights, f.requester ≠ 2) ∧
    decode s.params [1, 0x3C00, 2, 0] = .request (.h2s 0x3C00) [2, 0] := by decide

/-- ReservedHeaderIsAnsweredAndRecorded, at the header just above the last operation. -/
theorem witness_ReservedHeaderIsAnsweredAndRecorded :
    let s := { flyingState .h2sMany 1 with inputs := [.send 2 [5]] }
    s.recordedFault = none ∧ s.inputs = [.send 2 (5 :: [])] ∧ (∀ f ∈ s.flights, f.requester ≠ 2) ∧
    (5 : Word) ≠ 1 ∧ (5 : Word) ≠ 2 ∧ (5 : Word) ≠ 3 ∧ (5 : Word) ≠ 4 := by decide

/-- OnlyAReservedHeaderRecordsAFault, ReservedStatusesAreNeverProduced: a step that records one and answers. -/
theorem witness_OnlyAReservedHeaderRecordsAFault :
    (nextOf (step { State.reset with inputs := [.send 0 [0]] })).map (fun t => (t.recordedFault, t.responses)) =
      some (some .illegalRequest, [⟨0, 2, 0⟩]) := by decide

/-- RequesterWaitsForItsResponse. -/
theorem witness_RequesterWaitsForItsResponse :
    let s := { flyingState .s2hMany 1 with inputs := [.send 1 [1, 0]] }
    let f : Flight := ⟨1, sampleTransfer .s2hMany 1⟩
    s.recordedFault = none ∧ s.inputs = [.send 1 [1, 0]] ∧ f ∈ s.flights ∧
    (Input.send 1 [1, 0]).waitsFor = some f.requester ∧ s.admitsTransfer f.transfer = true ∧
    ∀ g ∈ s.flights, g.requester = f.requester → g = f := by decide

/-- ScalarOperationsAreTotalAndPure: a state for each map. -/
theorem witness_ScalarOperationsAreTotalAndPure :
    State.reset.params.h2sNan = .ruleDefault ∧ State.reset.params.s2hNan = .ruleDefault ∧
    { State.reset with params := { h2sNan := .free } }.params.h2sNan = .free ∧
    { State.reset with params := { s2hNan := .free } }.params.s2hNan = .free := by decide

/-- H2sResult, H2sNanStaysNan, H2sIsInjective, WideningThenNarrowingGivesBack: an operand of each branch, the least and
the greatest of the subnormals, the ends of the normals. -/
theorem witness_h2s_branches :
    (Half.exp 0x7C01 = 0x1F ∧ Half.man 0x7C01 ≠ 0 ∧ Half.category 0x7C01 = .nan) ∧
    (Half.exp 0x7C00 = 0x1F ∧ Half.man 0x7C00 = 0) ∧ (Half.exp 0x8000 = 0 ∧ Half.man 0x8000 = 0) ∧
    (Half.exp 0x0001 = 0 ∧ (Half.man 0x0001).getLsbD 0 = true) ∧
    (Half.exp 0x03FF = 0 ∧ (Half.man 0x03FF).getLsbD 9 = true) ∧
    (1 ≤ (Half.exp 0x0400).toNat ∧ (Half.exp 0x7BFF).toNat ≤ 30) ∧
    Half.category 0x3C00 ≠ .nan := by decide

/-- H2sResult, the subnormal branch: no bit of the mantissa is set above its most significant one. -/
theorem witness_H2sResult_subnormal : ∀ q, 9 < q → (Half.man 0x03FF).getLsbD q = false :=
  fun _ h => BitVec.getLsbD_of_ge _ _ h

/-- H2sWidensExactly: a subnormal, a negative zero and an infinity have a value. -/
theorem witness_H2sWidensExactly :
    Half.value 0x0001 = some (Value.finite 0 (2 ^ 125)) ∧ Half.category 0x0001 = .subnormal ∧
    Half.value 0x8000 = some (Value.finite 1 0) ∧ Half.value 0xFC00 = some (Value.infinite 1) := by decide

/-- H2sIsInjective, the middle clause: a binary32 pattern whose value a binary16 pattern has. -/
theorem witness_H2sIsInjective :
    Half.value 0x3C00 = Single.value 0x3F800000 ∧ (Half.value 0x3C00).isSome = true := by decide

/-- S2hResult, S2hRanges, S2hNanStaysNan: an operand of each branch and row, at its boundaries. -/
theorem witness_s2h_branches :
    ((Single.exp 0x7F800001).toNat = 0xFF ∧ (Single.man 0x7F800001).toNat ≠ 0) ∧
    ((Single.exp 0x7F800000).toNat = 0xFF ∧ (Single.man 0x7F800000).toNat = 0) ∧
    (Single.exp 0x47800000).toNat = 143 ∧ (Single.exp 0x7F7FFFFF).toNat = 254 ∧
    ((Single.exp 0x477FEFFF).toNat = 142 ∧ (Single.man 0x477FEFFF).toNat < 0x7FF000) ∧
    ((Single.exp 0x477FF000).toNat = 142 ∧ 0x7FF000 ≤ (Single.man 0x477FF000).toNat) ∧
    (Single.exp 0x38800000).toNat = 113 ∧ (Single.exp 0x387FFFFF).toNat = 112 ∧ (Single.exp 0x33800000).toNat = 103 ∧
    ((Single.exp 0x33000000).toNat = 102 ∧ (Single.man 0x33000000).toNat = 0) ∧
    ((Single.exp 0x33000001).toNat = 102 ∧ (Single.man 0x33000001).toNat ≠ 0) ∧
    (Single.exp 0x32FFFFFF).toNat = 101 ∧ (Single.exp 0x00800000).toNat = 1 ∧ (Single.exp 0x807FFFFF).toNat = 0 := by
  decide

/-- S2hRoundsToNearestEven, HalfInfinityThreshold: just below and at the threshold; a candidate as near as the result. -/
theorem witness_S2hRoundsToNearestEven :
    Single.exp 0x477FEFFF ≠ 0xFF ∧ Single.magnitude 0x477FEFFF < 65520 * 2 ^ 149 ∧ Single.exp 0x477FF000 ≠ 0xFF ∧
    65520 * 2 ^ 149 ≤ Single.magnitude 0x477FF000 ∧ Half.exp 0x3C01 ≠ 0x1F ∧
    ((Single.magnitude 0x3F801000 : Int) - (Half.magnitude 0x3C01 * 2 ^ 125 : Nat)).natAbs =
      ((Single.magnitude 0x3F801000 : Int) - (Half.magnitude 0x3C00 * 2 ^ 125 : Nat)).natAbs ∧
    Half.magnitude 0x3C01 ≠ Half.magnitude 0x3C00 := by decide

/-- TiesGoToEven: the lowest and the highest tie. -/
theorem witness_TiesGoToEven :
    Single.exp 0x33000000 ≠ 0xFF ∧
    2 * Single.magnitude 0x33000000 = (Half.magnitude (BitVec.ofNat 16 0) + Half.magnitude (BitVec.ofNat 16 1)) * 2 ^ 125 ∧
    Single.exp 0x477FF000 ≠ 0xFF ∧
    2 * Single.magnitude 0x477FF000 =
      (Half.magnitude (BitVec.ofNat 16 0x7BFF) + Half.magnitude (BitVec.ofNat 16 0x7C00)) * 2 ^ 125 := by decide

/-- ConversionsKeepOrder: values in order, an infinity among them. -/
theorem witness_ConversionsKeepOrder :
    Single.value 0xFF800000 = some (Value.infinite 1) ∧ Single.value 0x3F800000 = some (Value.finite 0 (2 ^ 149)) ∧
    Value.infinite 1 ≤ Value.finite 0 (2 ^ 149) ∧ Half.value 0xFC00 = some (Value.infinite 1) ∧
    Half.value 0x3C00 = some (Value.finite 0 (2 ^ 149)) ∧ Value.infinite 1 < Value.finite 0 (2 ^ 149) := by decide

/-- ElementWrittenIsReadBack, ByteOrderOfAnElement: a canonical memory and the largest element. -/
theorem witness_ElementWrittenIsReadBack :
    Memory.wf [(0x2001, 0x3C)] ∧ 0xFFFFFFFF < 2 ^ (8 * 4) ∧ (3 : Nat) < 4 := by decide

/-- OnlyTheseEventsChangeMemory: a step of each kind that changes memory, but for the reset, whose bytes are free. -/
theorem witness_OnlyTheseEventsChangeMemory :
    (nextOf (step { sampleState with inputs := [.hostWrite 2 0x10 [7]] })).map State.mem ≠ some sampleState.mem ∧
    (nextOf (step (flyingState .h2sMany 1))).map State.mem ≠ some sampleState.mem := by decide

/-- MisalignedBufferFaults: each base of each operation, n = 0 among them. -/
theorem witness_MisalignedBufferFaults :
    (⟨1, ⟨.h2sMany, 2, 0, 0, 0⟩⟩ : Flight) ∉ sampleState.flights ∧ ¬ 4 ∣ 2 ∧ ¬ 2 ∣ 1 ∧
    (⟨1, ⟨.s2hMany, 0, 0, 2, 0⟩⟩ : Flight) ∉ sampleState.flights := by decide

/-- WrappingBufferFaults: one element past the end, for each buffer of each operation. -/
theorem witness_WrappingBufferFaults :
    (⟨1, ⟨.h2sMany, 2 ^ 64 - 4, 2, 0x2000, 2⟩⟩ : Flight) ∉ sampleState.flights ∧ 4 ∣ 2 ^ 64 - 4 ∧ 2 ∣ 0x2000 ∧
    2 ^ sampleState.params.addrWidth < 2 ^ 64 - 4 + 2 * 4 ∧ 2 ^ sampleState.params.addrWidth < 2 ^ 64 - 2 + 2 * 2 ∧
    (⟨1, ⟨.s2hMany, 2 ^ 64 - 2, 2, 0x2000, 2⟩⟩ : Flight) ∉ sampleState.flights ∧ 2 ∣ 2 ^ 64 - 2 ∧ 4 ∣ 0x2000 := by
  decide

/-- OverlappingBuffersFault: ranges that share their edge bytes alone, for each operation. -/
theorem witness_OverlappingBuffersFault :
    ((⟨1, ⟨.h2sMany, 0x1000, 1, 0x1002, 2⟩⟩ : Flight) ∉ sampleState.flights ∧ 4 ∣ 0x1000 ∧ 2 ∣ 0x1002 ∧
      0x1000 + 1 * 4 ≤ 2 ^ sampleState.params.addrWidth ∧ 0x1002 + 2 * 2 ≤ 2 ^ sampleState.params.addrWidth ∧
      0x1000 ≤ 0x1003 ∧ 0x1003 < 0x1000 + 1 * 4 ∧ 0x1002 ≤ 0x1003 ∧ 0x1003 < 0x1002 + 2 * 2) ∧
    ((⟨1, ⟨.s2hMany, 0x1000, 4, 0x1004, 1⟩⟩ : Flight) ∉ sampleState.flights ∧ 2 ∣ 0x1000 ∧ 4 ∣ 0x1004 ∧
      0x1000 + 4 * 2 ≤ 2 ^ sampleState.params.addrWidth ∧ 0x1004 + 1 * 4 ≤ 2 ^ sampleState.params.addrWidth ∧
      0x1000 ≤ 0x1007 ∧ 0x1007 < 0x1000 + 4 * 2 ∧ 0x1004 ≤ 0x1007 ∧ 0x1007 < 0x1004 + 1 * 4) := by decide

/-- CapabilityGate: each clause; the gated `H2S.MANY` too, and n = 0. -/
theorem witness_CapabilityGate :
    ((⟨State.reset.requester, sampleTransfer .s2hMany 0⟩ : Flight) ∉ State.reset.flights ∧
      (sampleTransfer .s2hMany 0).sound State.reset.params ∧ State.reset.cap = false ∧
      (sampleTransfer .s2hMany 0).op = .s2hMany) ∧
    (let s := { State.reset with params := { h2sManyGated := true } };
      (sampleTransfer .h2sMany 1).sound s.params ∧ s.cap = false ∧ s.params.h2sManyGated = true) ∧
    ((sampleTransfer .h2sMany 1).op = .h2sMany ∧ State.reset.params.h2sManyGated = false ∧
      ∀ f ∈ State.reset.flights, f.transfer.conflicts (sampleTransfer .h2sMany 1) = false) := by decide

/-- BulkRequestStarts, for each operation, with another request in flight that ends where this one begins. -/
theorem witness_BulkRequestStarts :
    let s : State := { flyingState .h2sMany 1 with requester := 2 }
    let t : Transfer := ⟨.s2hMany, 0x1004, 1, 0x2004, 1⟩
    (⟨s.requester, t⟩ : Flight) ∉ s.flights ∧ t.sound s.params ∧ s.cap = true ∧
    (∀ f ∈ s.flights, f.transfer.conflicts t = false) ∧
    (sampleTransfer .h2sMany 1).sound State.reset.params ∧ State.reset.params.h2sManyGated = false := by decide

/-- ConflictingStartIsARace: each kind of conflict, in one byte; an ungated `H2S.MANY` without CAP too. -/
theorem witness_ConflictingStartIsARace :
    let s : State := { flyingState .h2sMany 1 with requester := 2 }
    let f : Flight := ⟨1, sampleTransfer .h2sMany 1⟩
    let reads : Transfer := ⟨.h2sMany, 0x3000, 1, 0x1002, 1⟩
    let writes : Transfer := ⟨.s2hMany, 0x1002, 1, 0x3000, 1⟩
    let overSource : Transfer := ⟨.s2hMany, 0x2000, 1, 0x3000, 1⟩
    f ∈ s.flights ∧ s.cap = true ∧
    ((⟨s.requester, reads⟩ : Flight) ∉ s.flights ∧ reads.sound s.params ∧
      f.transfer.dstWritten.contains 0x1003 = true ∧ reads.srcRead.contains 0x1003 = true) ∧
    ((⟨s.requester, writes⟩ : Flight) ∉ s.flights ∧ writes.sound s.params ∧
      f.transfer.dstWritten.contains 0x1003 = true ∧ writes.dstWritten.contains 0x1003 = true) ∧
    ((⟨s.requester, overSource⟩ : Flight) ∉ s.flights ∧ overSource.sound s.params ∧
      f.transfer.srcRead.contains 0x2001 = true ∧ overSource.dstWritten.contains 0x2001 = true) ∧
    (⟨2, reads⟩ : Flight) ∉ s.flights ∧ reads.op = .h2sMany ∧ s.params.h2sManyGated = false ∧
    faultOf (exec reads.instr { s with cap := false }) = some .bufferRace := by decide

/-- H2sManyCompletes, S2hManyCompletes, BatchIsNotObservable, BulkEqualsScalar, BulkRequestIsIdempotent, CapIsSampledOnce:
a sound request in flight over canonical, admitted memory, which completes and is answered OK. -/
theorem witness_bulk_in_flight (op : BulkOp) :
    let s := flyingState op 1
    let t := sampleTransfer op 1
    (⟨s.requester, t⟩ : Flight) ∈ s.flights ∧ t.sound s.params ∧ s.mem.wf ∧ s.admitsSpan t.srcRead = true ∧
    s.admitsSpan t.dstWritten = true ∧ 0 < min t.srcLen t.dstLen ∧
    (nextOf (exec t.instr s)).map State.responses = some [⟨s.requester, 0, 0⟩] := by
  cases op <;> decide

/-- Requester 1's bulk request in flight, over memory whose last source byte and last destination byte the host does not
admit. -/
def stuckState : State := { flyingState .h2sMany 1 with unadmitted := [⟨0x2001, 1⟩, ⟨0x1003, 1⟩] }

/-- 20_memory.md R47, 60_exceptions.md R140: a stuck request gives no response and stays; the request of another requester
behind a move of the stuck one is answered; and once the host admits the memory, the stuck request is answered. -/
theorem test_stuck_request :
    nextOf (step stuckState) = some stuckState ∧
    (nextOf (step { stuckState with inputs := [.answer 1, .send 2 [1, 0x3C00]] })).map
      (fun s => (s.responses, s.inputs, s.flights.length)) = some ([⟨2, 0, 0x3F800000⟩], [.answer 1], 1) ∧
    (nextOf (Host.Core.run core 2 { stuckState with inputs := [.mapMemory []] })).map State.responses =
      some [⟨1, 0, 0⟩] := by decide

/-- BulkRequestSticksOnUnadmittedMemory: the last byte of each accessed range. -/
theorem witness_BulkRequestSticksOnUnadmittedMemory :
    let t := sampleTransfer .h2sMany 1
    (⟨stuckState.requester, t⟩ : Flight) ∈ stuckState.flights ∧ stuckState.recordedFault = none ∧
    stuckState.inputs = [] ∧
    ((⟨0x2001, 1⟩ : Span) ∈ stuckState.unadmitted ∧ Span.contains ⟨0x2001, 1⟩ 0x2001 = true ∧
      t.srcRead.contains 0x2001 = true) ∧
    ((⟨0x1003, 1⟩ : Span) ∈ stuckState.unadmitted ∧ Span.contains ⟨0x1003, 1⟩ 0x1003 = true ∧
      t.dstWritten.contains 0x1003 = true) := by decide

/-- StuckRequestHoldsUpNoOther: a move of the stuck requester before the other's request. -/
theorem witness_StuckRequestHoldsUpNoOther :
    let s : State := { stuckState with inputs := [.answer 1] ++ .send 2 [1, 0x3C00] :: [] }
    let f : Flight := ⟨1, sampleTransfer .h2sMany 1⟩
    s.recordedFault = none ∧ f ∈ s.flights ∧ (Input.answer 1).waitsFor = some f.requester ∧
    (∀ g ∈ s.flights, g.requester = f.requester → s.admitsTransfer g.transfer = false) ∧
    (∀ f ∈ s.flights, f.requester ≠ 2) ∧ decode s.params [1, 0x3C00] = .request (.h2s 0x3C00) [] := by decide

/-- UnadmittedHostAccessDoesNotHappen: an access of each kind to one byte that is not admitted, with a stuck request in
flight that reads it. -/
theorem witness_UnadmittedHostAccessDoesNotHappen :
    let s : State := { stuckState with unadmitted := [⟨0x2001, 1⟩, ⟨0x1004, 1⟩] }
    s.recordedFault = none ∧ (∀ g ∈ s.flights, g.requester ≠ 2 ∧ s.admitsTransfer g.transfer = false) ∧
    0x2001 + 1 ≤ 2 ^ s.params.addrWidth ∧ s.admitsSpan ⟨0x2001, 1⟩ = false ∧ s.admitsSpan ⟨0x1004, 1⟩ = false ∧
    (∀ f ∈ s.flights, f.transfer.dstWritten.contains 0x2001 = false) ∧
    ∀ f ∈ s.flights, f.transfer.srcRead.contains 0x1004 = false ∧ f.transfer.dstWritten.contains 0x1004 = false := by
  decide

/-- Two requests in flight: a request of each operation, the second reading what the first reads. -/
def twoFlights : State :=
  { sampleState with flights := [⟨1, sampleTransfer .h2sMany 1⟩, ⟨2, ⟨.s2hMany, 0x1004, 1, 0x2000, 1⟩⟩] }

theorem witness_invariant_two : twoFlights.Inv :=
  { params := by decide
    canonical := by decide
    inSpace := by decide
    sound := by decide
    compatible := by decide
    statuses := by decide
    recorded := Or.inl rfl }

/-- RequestsInFlightCommute. -/
theorem witness_RequestsInFlightCommute :
    (⟨1, sampleTransfer .h2sMany 1⟩ : Flight) ≠ ⟨2, ⟨.s2hMany, 0x1004, 1, 0x2000, 1⟩⟩ ∧ twoFlights.flights.length = 2 ∧
    ∀ f ∈ twoFlights.flights,
      twoFlights.admitsSpan f.transfer.srcRead = true ∧ twoFlights.admitsSpan f.transfer.dstWritten = true := by decide

/-- EveryRequestInFlightIsAnswered: the older of two requests in flight stuck, and a move of its requester. -/
theorem witness_EveryRequestInFlightIsAnswered :
    let s : State := { twoFlights with unadmitted := [⟨0x1003, 1⟩], inputs := [.answer 1] }
    s.recordedFault = none ∧ s.nextMove = none ∧ s.flights.map (fun f => s.admitsTransfer f.transfer) = [false, true] := by
  decide

/-- BulkRequestRunsInTwoSteps, for each operation; `H2S.MANY` without CAP too. -/
theorem witness_BulkRequestRunsInTwoSteps (op : BulkOp) :
    let t := sampleTransfer op 1
    let s := { sampleState with inputs := [.send 1 (encode sampleState.params t.instr)] }
    s.recordedFault = none ∧ s.flights = [] ∧ s.inputs = [.send 1 (encode s.params t.instr)] ∧
    t.instr.wellFormed s.params = true ∧ t.sound s.params ∧ s.mem.wf ∧ s.cap = true ∧
    s.params.h2sManyGated = false ∧ s.admitsSpan t.srcRead = true ∧ s.admitsSpan t.dstWritten = true := by
  cases op <;> decide

/-- AccessToAnInFlightBufferIsARace: the last byte of each accessed range, touched by an access's first byte. -/
theorem witness_AccessToAnInFlightBufferIsARace :
    let f : Flight := ⟨1, sampleTransfer .h2sMany 1⟩
    let s := { flyingState .h2sMany 1 with inputs := [.hostWrite 2 0x2001 [0, 0]] }
    let u := { flyingState .h2sMany 1 with inputs := [.hostRead 2 0x1003 2] }
    s.recordedFault = none ∧ f ∈ s.flights ∧ (∀ g ∈ s.flights, g.requester ≠ 2) ∧
    0x2001 + 2 ≤ 2 ^ s.params.addrWidth ∧ f.transfer.srcRead.contains 0x2001 = true ∧ f.transfer.dstWritten.contains 0x1003 = true ∧
    s.inputs = [.hostWrite 2 0x2001 [0, 0]] ∧ u.inputs = [.hostRead 2 0x1003 2] := by decide

/-- RaceFreeHostAccessHappens: accesses next to the buffers in flight. -/
theorem witness_RaceFreeHostAccessHappens :
    let s := flyingState .h2sMany 1
    s.recordedFault = none ∧ (∀ g ∈ s.flights, g.requester ≠ 2) ∧ 0x1004 + 1 ≤ 2 ^ s.params.addrWidth ∧
    s.admitsSpan ⟨0x1004, 1⟩ = true ∧
    ∀ f ∈ s.flights, f.transfer.srcRead.contains 0x1004 = false ∧ f.transfer.dstWritten.contains 0x1004 = false := by
  decide

/-- ResetAbandonsRequestsInFlight, ResetChangesNoState: a reset with a request in flight, and one without. -/
theorem witness_ResetAbandonsRequestsInFlight :
    let s := { flyingState .h2sMany 1 with inputs := [.resetBlock] }
    s.recordedFault = none ∧ s.inputs = [.resetBlock] ∧
    (sampleTransfer .h2sMany 1).dstWritten.contains 0x1003 = true ∧ State.reset.flights = [] := by decide

/-- The invariant does not depend on what the host does next. -/
theorem witness_ResetAbandons_invariant : { flyingState .h2sMany 1 with inputs := [.resetBlock] }.Inv :=
  { params := by decide
    canonical := by decide
    inSpace := by decide
    sound := by decide
    compatible := by decide
    statuses := by decide
    recorded := Or.inl rfl }

/-- StepKeepsTheInvariant, BuffersInFlightAreStable: a step that leaves a request in flight while another starts. -/
theorem witness_BuffersInFlightAreStable :
    (nextOf (step { flyingState .h2sMany 1 with inputs := [.send 2 [4, 0x1004, 0, 1, 0, 0x2004, 0, 1, 0]] })).map
      (fun t => t.flights) = some [⟨1, sampleTransfer .h2sMany 1⟩, ⟨2, ⟨.s2hMany, 0x1004, 1, 0x2004, 1⟩⟩] := by decide

/-- OnlyTheHostDrivesItsLines: a step that drives CAP, and one that changes what is admitted. -/
theorem witness_OnlyTheHostDrivesItsLines :
    (nextOf (step { State.reset with inputs := [.driveCap true] })).map State.cap = some true ∧
    (nextOf (step { State.reset with inputs := [.mapMemory [⟨0, 4⟩]] })).map State.unadmitted = some [⟨0, 4⟩] := by
  decide

/-- ReadyAfterReset: a sound request of each operation that can be sent, one with a buffer at the top of memory. -/
theorem witness_ReadyAfterReset :
    (sampleTransfer .h2sMany 1).instr.wellFormed State.reset.params = true ∧
    (sampleTransfer .h2sMany 1).sound State.reset.params ∧ (sampleTransfer .h2sMany 1).op = .h2sMany ∧
    (⟨.s2hMany, 2 ^ 64 - 2, 1, 0, 1⟩ : Transfer).instr.wellFormed State.reset.params = true ∧
    (⟨.s2hMany, 2 ^ 64 - 2, 1, 0, 1⟩ : Transfer).sound State.reset.params := by decide

end Sys2Proof.Machine
end

/-! ## Serving a requester with nothing in flight -/

namespace Sys2Proof.Machine

/-- Sending words is stuck only behind an outstanding request of the same agent (20_memory.md R50). -/
theorem State.moveStuck_send_of_idle {s : State} {agent : Nat} (words : List Word)
    (idle : s.outstanding agent = none) : s.moveStuck (.send agent words) = false := by
  simp [State.moveStuck, Input.waitsFor, idle, State.accessStuck]

/-- No response is waited for, so the words themselves are served (20_memory.md R50). -/
theorem serveInput_send_of_idle {s : State} {agent : Nat} (words : List Word) (later : List Input)
    (idle : s.outstanding agent = none) : serveInput (.send agent words) later s = serveWords agent words later s := by
  simp [serveInput, Input.waitsFor, idle, takeInput]

theorem serveWords_of_request {s : State} {words : List Word} {i : Instr} {rest : List Word} (agent : Nat)
    (later : List Input) (decoded : decode s.params words = .request i rest) :
    serveWords agent words later s = exec i (s.fetched agent rest later) := by
  simp [serveWords, decoded]

/-- A step whose first input is words of a requester with nothing in flight serves those words, whatever they decode
to (30_encoding.md R66). -/
theorem step_send_of_idle {s : State} {agent : Nat} {words : List Word} {later : List Input}
    (unfaulted : s.recordedFault = none) (input : s.inputs = .send agent words :: later)
    (idle : ∀ f ∈ s.flights, f.requester ≠ agent) : step s = serveWords agent words later s := by
  have waitsForNone : s.outstanding agent = none := State.outstanding_of_idle idle
  have move : s.nextMove = some (.send agent words, later) :=
    State.nextMove_of_head input (State.moveStuck_send_of_idle words waitsForNone)
  rw [step_of_move unfaulted move, serveInput_send_of_idle words later waitsForNone]

/-- Settles O8: the words are the next move, nothing outstanding comes before them, and serving words that decode to a
request is `exec` of it in the fetched state. -/
theorem stepRunsTheDecodedRequest : Obligations.StepRunsTheDecodedRequest := by
  intro s agent words later i rest unfaulted input idle decoded
  rw [step_send_of_idle unfaulted input idle, serveWords_of_request agent later decoded, State.fetched]

end Sys2Proof.Machine

/-! ## The lines the host drives -/

namespace Sys2Proof.Machine

/-- What every transition leaves of the parameters, of CAP and of the admitted memory (10_state.md R24, 20_memory.md
R47): the parameters always, each line unless the move made is the host's move on that line. -/
theorem StepChange.lines {s t : State} (change : StepChange s t) :
    t.params = s.params ∧
    (t.cap = s.cap ∨ ∃ level later, s.nextMove = some (.driveCap level, later)) ∧
    (t.unadmitted = s.unadmitted ∨ ∃ spans later, s.nextMove = some (.mapMemory spans, later)) := by
  cases change with
  | waited | illegal | passed | wrote | looked => exact ⟨rfl, .inl rfl, .inl rfl⟩
  | answered _ _ _ _ done => subst done; exact ⟨rfl, .inl rfl, .inl rfl⟩
  | ran _ _ _ _ _ _ _ _ _ change =>
    obtain ⟨params, unadmitted, cap, -⟩ := change.keeps
    exact ⟨params, .inl cap, .inl unadmitted⟩
  | drove level later input => exact ⟨rfl, .inr ⟨level, later, input⟩, .inl rfl⟩
  | mapped spans later input => exact ⟨rfl, .inl rfl, .inr ⟨spans, later, input⟩⟩
  | wasReset =>
    exact ⟨State.resetBlock_params _, .inl (State.resetBlock_cap _), .inl (State.resetBlock_unadmitted _)⟩

/-- Settles O53: a line that changed was not kept, so the step's move is the host's move on that line. -/
theorem onlyTheHostDrivesItsLines : Obligations.OnlyTheHostDrivesItsLines := by
  intro s t stepped
  obtain ⟨params, cap, unadmitted⟩ := (step_next stepped).1.lines
  exact ⟨params, cap.resolve_left, unadmitted.resolve_left⟩

end Sys2Proof.Machine

/-! ## The two steps of a bulk request, and CAP -/

namespace Sys2Proof.Machine

/-- A request in flight is past its start step (60_exceptions.md R149). -/
theorem exec_instr_of_flying {t : Transfer} {s : State} (flying : (⟨s.requester, t⟩ : Flight) ∈ s.flights) :
    exec t.instr s = bulkComplete t s := by
  rw [exec_instr, bulkStep, if_pos (by simpa using flying)]

/-- With nothing in flight a bulk request is at its start step (60_exceptions.md R149). -/
theorem exec_instr_of_noFlights {t : Transfer} {s : State} (noFlights : s.flights = []) :
    exec t.instr s = bulkStart t s := by
  rw [exec_instr, bulkStep, noFlights]
  rfl

/-- The start step turns a sound request away where its gate fails (41_bulk_simd_conversion.md R119). -/
theorem bulkStart_of_gateFailed {t : Transfer} {s : State} (sound : t.precondition s.params = none)
    (gated : t.op.gated s.params = true) (noCap : s.cap = false) :
    bulkStart t s = .next (s.respond .unsupportedHardware 0) := by
  rw [bulkStart, sound]
  exact if_pos ⟨gated, noCap⟩

/-- The completion step does not read CAP: it is the start step that samples it (10_state.md R24). -/
theorem bulkComplete_driveCap {t : Transfer} {s u : State} (level : Bool) (completed : bulkComplete t s = .next u) :
    bulkComplete t { s with cap := level } = .next { u with cap := level } := by
  cases admitted : s.admitsTransfer t with
  | true =>
    rw [bulkComplete_of_admits admitted] at completed
    cases completed
    exact bulkComplete_of_admits admitted
  | false =>
    rw [bulkComplete_of_stuck admitted] at completed
    cases completed
    exact bulkComplete_of_stuck admitted

/-- Settles O37: a scalar operation answers from its operand and the parameters, and a bulk request in flight is at its
completion step, which does not read CAP. -/
theorem capIsSampledOnce : Obligations.CapIsSampledOnce := by
  rintro s u i level (⟨h, rfl⟩ | ⟨x, rfl⟩ | ⟨t, rfl, flying⟩) executed
  · cases executed; rfl
  · cases executed; rfl
  · rw [exec_instr_of_flying flying] at executed
    exact (exec_instr_of_flying (s := { s with cap := level }) flying).trans (bulkComplete_driveCap level executed)

end Sys2Proof.Machine

/-! ## The decoder reads back what the encoder wrote -/

namespace Sys2Proof

/-- The words of a number that fits them stand for it (30_encoding.md R64). -/
theorem joinWords_splitWords {k v : Nat} (fits : v < 2 ^ (32 * k)) : joinWords (splitWords k v) = v := by
  induction k generalizing v with
  | zero => rw [splitWords, joinWords]; omega
  | succ k ih =>
    have high : v / 2 ^ 32 < 2 ^ (32 * k) := Nat.div_lt_of_lt_mul (by rwa [← Nat.pow_add, Nat.add_comm])
    rw [splitWords, joinWords, ih high, BitVec.toNat_ofNat, Nat.mod_add_div]

/-- The first operand is the number in the first words (30_encoding.md R64). -/
theorem operandAt_zero_splitWords {k v : Nat} (fits : v < 2 ^ (32 * k)) (ws : List Word) :
    operandAt k 0 (splitWords k v ++ ws) = v := by
  rw [operandAt, Nat.zero_mul, List.drop_zero, List.take_left' (splitWords_length k v), joinWords_splitWords fits]

/-- Operand `j + 1` is operand `j` of the words after the first operand (30_encoding.md R64). -/
theorem operandAt_succ_splitWords (k j v : Nat) (ws : List Word) :
    operandAt k (j + 1) (splitWords k v ++ ws) = operandAt k j ws := by
  have skip : (j + 1) * k = (splitWords k v).length + j * k := by rw [splitWords_length, Nat.succ_mul, Nat.add_comm]
  rw [operandAt, operandAt, skip, List.drop_length_add_append]

/-- Four operands that fit are read back from their words, and the words after them are left (30_encoding.md R64). -/
theorem decodeBulk_splitWords {p : Params} (mk : Nat → Nat → Nat → Nat → Instr) {a b c d : Nat} (rest : List Word)
    (fits : (p.fitsOperand a && p.fitsOperand b && p.fitsOperand c && p.fitsOperand d) = true) :
    decodeBulk p mk (splitWords p.addrWords a ++ splitWords p.addrWords b ++ splitWords p.addrWords c ++
      splitWords p.addrWords d ++ rest) = .request (mk a b c d) rest := by
  simp only [Params.fitsOperand, Bool.and_eq_true, decide_eq_true_eq] at fits
  obtain ⟨⟨⟨ha, hb⟩, hc⟩, hd⟩ := fits
  have enough : (splitWords p.addrWords a ++ splitWords p.addrWords b ++ splitWords p.addrWords c ++
      splitWords p.addrWords d).length = 4 * p.addrWords := by
    simp only [List.length_append, splitWords_length]; omega
  rw [decodeBulk, if_neg (by rw [List.length_append, enough]; omega), List.drop_left' enough]
  simp only [List.append_assoc, operandAt_succ_splitWords, operandAt_zero_splitWords ha, operandAt_zero_splitWords hb,
    operandAt_zero_splitWords hc, operandAt_zero_splitWords hd]

/-- The decoder gives back every request that can be encoded, and leaves the words that follow it
(30_encoding.md R60 to R66). -/
theorem decode_encode_append {p : Params} {i : Instr} (fits : i.wellFormed p = true) (rest : List Word) :
    decode p (encode p i ++ rest) = .request i rest := by
  rw [encode, List.cons_append, decode, Opcode.ofHeader_header]
  cases i with
  | h2s h => simp [Instr.opcode, Instr.operandWords, decodeScalar]
  | s2h x => rfl
  | h2sMany dst dstLen src srcLen => exact decodeBulk_splitWords .h2sMany rest fits
  | s2hMany dst dstLen src srcLen => exact decodeBulk_splitWords .s2hMany rest fits

/-- `decode_encode_append` with no words after the request. -/
theorem decode_encode {p : Params} {i : Instr} (fits : i.wellFormed p = true) :
    decode p (encode p i) = .request i [] := by
  simpa using decode_encode_append fits []

end Sys2Proof

/-! ## The first request after reset -/

namespace Sys2Proof.Machine

/-- The step that serves the words of one request, with nothing in flight and nothing behind it, is `exec` of it. -/
theorem step_send_encoded {s : State} {agent : Nat} {i : Instr} (unfaulted : s.recordedFault = none)
    (noFlights : s.flights = []) (input : s.inputs = [.send agent (encode s.params i)])
    (fits : i.wellFormed s.params = true) : step s = exec i { s with requester := agent, inputs := [] } :=
  stepRunsTheDecodedRequest s agent _ [] i [] unfaulted input (by simp [noFlights]) (decode_encode fits)

/-- Where everything is admitted no transfer is stuck (20_memory.md R47). -/
theorem State.admitsTransfer_of_allAdmitted {s : State} (all : s.unadmitted = []) (t : Transfer) :
    s.admitsTransfer t = true := by
  simp [State.admitsTransfer, State.admitsSpan, all]

/-- With no move to make and all memory admitted, the only request in flight is completed. -/
theorem step_of_onlyFlight {s : State} {f : Flight} (unfaulted : s.recordedFault = none) (noInputs : s.inputs = [])
    (only : s.flights = [f]) (all : s.unadmitted = []) :
    step s = .next (State.completed { s with requester := f.requester } f.transfer) := by
  have noMove : s.nextMove = none := by rw [State.nextMove, noInputs, State.firstMove]
  have admitted := State.admitsTransfer_of_allAdmitted all f.transfer
  have oldest : s.oldestAdmitted = some f := by rw [State.oldestAdmitted, only]; exact List.find?_cons_of_pos admitted
  rw [step_of_noMove unfaulted noMove, serveOldest, oldest]
  exact completeFlight_of_admits (by simp [only]) admitted

/-- The block after reset, at this level of CAP, when `agent` has sent the request `i`. -/
def State.sentAfterReset (agent : Nat) (cap : Bool) (i : Instr) : State :=
  { State.reset with cap := cap, inputs := [.send agent (encode State.reset.params i)] }

/-- The block after reset, at this level of CAP, while it serves `agent`. -/
def State.servingAfterReset (agent : Nat) (cap : Bool) : State :=
  { State.reset with cap := cap, requester := agent }

/-- After reset the first request runs at once. -/
theorem step_sentAfterReset (agent : Nat) (cap : Bool) {i : Instr} (fits : i.wellFormed State.reset.params = true) :
    step (.sentAfterReset agent cap i) = exec i (.servingAfterReset agent cap) :=
  step_send_encoded rfl rfl rfl fits

/-- After reset a sound bulk request whose gate passes is in flight after one step. -/
theorem step_sentAfterReset_launched (agent : Nat) {cap : Bool} {t : Transfer}
    (fits : t.instr.wellFormed State.reset.params = true) (sound : t.sound State.reset.params)
    (gate : t.op = .h2sMany ∨ cap = true) :
    step (.sentAfterReset agent cap t.instr) = .next ((State.servingAfterReset agent cap).launched t) := by
  have passes : t.op.gated State.reset.params = false ∨ cap = true := gate.imp_left fun op => by rw [op]; rfl
  rw [step_sentAfterReset agent cap fits, exec_instr_of_noFlights rfl]
  exact bulkStart_of_clear sound passes fun _ flying => absurd flying List.not_mem_nil

/-- After reset such a request is answered in the next step. -/
theorem step_launchedAfterReset (agent : Nat) (cap : Bool) (t : Transfer) :
    step ((State.servingAfterReset agent cap).launched t) = .next { State.servingAfterReset agent cap with
      mem := t.run State.reset.params State.reset.mem, responses := [⟨agent, 0, 0⟩] } := by
  rw [step_of_onlyFlight (f := ⟨agent, t⟩) rfl rfl rfl rfl, State.completed]
  simp [State.launched, State.servingAfterReset, State.respond, State.reset, Status.code]

/-- With CAP as it is at reset, `S2H.MANY` is turned away in its first step. -/
theorem step_sentAfterReset_gateFailed (agent : Nat) {t : Transfer}
    (fits : t.instr.wellFormed State.reset.params = true) (sound : t.sound State.reset.params)
    (op : t.op = .s2hMany) :
    step (.sentAfterReset agent false t.instr) =
      .next ((State.servingAfterReset agent false).respond .unsupportedHardware 0) := by
  have gated : t.op.gated State.reset.params = true := by rw [op]; rfl
  rw [step_sentAfterReset agent false fits, exec_instr_of_noFlights rfl]
  exact bulkStart_of_gateFailed sound gated rfl

/-- Settles O48: the fields of `State.reset` are its definition; the first request's words decode to it and run at once,
and a bulk request that was launched is the only one in flight, so the second step completes it. -/
theorem readyAfterReset : Obligations.ReadyAfterReset := by
  refine ⟨rfl, rfl, rfl, rfl, rfl, fun agent => ⟨fun cap h => ?_, fun cap x => ?_, fun t fits sound => ⟨?_, ?_⟩⟩⟩
  · exact step_sentAfterReset agent cap rfl
  · exact step_sentAfterReset agent cap rfl
  · intro cap gate
    have launched := step_sentAfterReset_launched agent fits sound gate
    exact ⟨launched, _, (run_of_step 1 launched).trans (run_of_step 0 (step_launchedAfterReset agent cap t))⟩
  · exact step_sentAfterReset_gateFailed agent fits sound

end Sys2Proof.Machine

/-! ## Elements of memory -/

namespace Sys2Proof.Machine

/-- The bytes of a number that fits them stand for it (00_scope.md R8). -/
theorem joinBytes_splitBytes {n v : Nat} (fits : v < 2 ^ (8 * n)) : joinBytes (splitBytes n v) = v := by
  induction n generalizing v with
  | zero => rw [splitBytes, joinBytes]; omega
  | succ n ih =>
    have high : v / 256 < 2 ^ (8 * n) := Nat.div_lt_of_lt_mul (by rwa [← Nat.pow_add 2 8, Nat.add_comm])
    rw [splitBytes, joinBytes, ih high, BitVec.toNat_ofNat, Nat.mod_add_div]

/-- Byte `k` of a number is its bits `8k + 7` to `8k` (00_scope.md R8). -/
theorem getElem_splitBytes {n v k : Nat} (h : k < (splitBytes n v).length) :
    (splitBytes n v)[k] = BitVec.ofNat 8 (v >>> (8 * k)) := by
  induction n generalizing v k with
  | zero => exact absurd h (by simp [splitBytes])
  | succ n ih =>
    cases k with
    | zero => rfl
    | succ k =>
      have shift : (v / 256) >>> (8 * k) = v >>> (8 * (k + 1)) := by
        rw [Nat.mul_succ, Nat.add_comm, Nat.shiftRight_add, Nat.shiftRight_eq_div_pow v 8]
      simp only [splitBytes, List.getElem_cons_succ, ih, shift]

theorem Memory.readBytes_writeBytes {m : Memory} (hw : m.wf) (a : Nat) (bs : List Byte) :
    (m.writeBytes a bs).readBytes a bs.length = bs := by
  induction bs generalizing m a with
  | nil => rfl
  | cons b bs ih =>
    have first : (Memory.writeBytes (m.writeByte a b) (a + 1) bs).readByte a = b := by
      rw [Memory.readByte_writeBytes_outside _ _ (by omega), Memory.readByte_writeByte_eq hw]
    rw [List.length_cons, Memory.writeBytes, Memory.readBytes, first, ih (Memory.writeByte_wf hw a b)]

theorem Memory.read_write {m : Memory} (hw : m.wf) (e : Endian) (a : Nat) {n v : Nat} (fits : v < 2 ^ (8 * n)) :
    (m.write e a n v).read e a n = v := by
  have bytes (bs : List Byte) (len : bs.length = n) : (m.writeBytes a bs).readBytes a n = bs := by
    rw [← len, Memory.readBytes_writeBytes hw]
  cases e with
  | little => rw [Memory.read, Memory.write, bytes _ (by simp), joinBytes_splitBytes fits]
  | big => rw [Memory.read, Memory.write, bytes _ (by simp), List.reverse_reverse, joinBytes_splitBytes fits]

/-- Settles O25: the bytes stored are the bytes read, and they stand for the number. -/
theorem elementWrittenIsReadBack : Obligations.ElementWrittenIsReadBack :=
  fun e m a n v hw fits => ⟨Memory.read_write hw e a fits, fun _ => Memory.readByte_write_outside m e n v⟩

theorem Memory.readByte_write_little {m : Memory} (hw : m.wf) (a v : Nat) {n k : Nat} (h : k < n) :
    (m.write .little a n v).readByte (a + k) = BitVec.ofNat 8 (v >>> (8 * k)) := by
  rw [Memory.write, Memory.readByte_writeBytes_inside hw a _ (by simpa using h), getElem_splitBytes]

theorem Memory.readByte_write_big {m : Memory} (hw : m.wf) (a v : Nat) {n k : Nat} (h : k < n) :
    (m.write .big a n v).readByte (a + (n - 1 - k)) = BitVec.ofNat 8 (v >>> (8 * k)) := by
  have mirror : n - 1 - (n - 1 - k) = k := by omega
  rw [Memory.write, Memory.readByte_writeBytes_inside hw a _ (by simp; omega), List.getElem_reverse, getElem_splitBytes,
    splitBytes_length, mirror]

/-- Settles O26: the bytes are stored by rising address in the number's order, or in that order reversed. -/
theorem byteOrderOfAnElement : Obligations.ByteOrderOfAnElement :=
  fun _ a _ v _ hw h => ⟨Memory.readByte_write_little hw a v h, Memory.readByte_write_big hw a v h⟩

end Sys2Proof.Machine

/-! ## Stores, by the range they change -/

namespace Sys2Proof.Machine

theorem Memory.writeBytes_changesOnly (m : Memory) (a : Nat) (bs : List Byte) :
    Memory.ChangesOnly ⟨a, bs.length⟩ m (m.writeBytes a bs) :=
  ⟨fun _ => Memory.readByte_writeBytes_outside m bs, fun w => Memory.writeBytes_wf w a bs,
    fun _ => Memory.mem_writeBytes⟩

theorem Memory.writeFree_changesOnly (m : Memory) (r : Span) (k : Nat) :
    Memory.ChangesOnly r m (m.writeFree r.base k r.size) :=
  ⟨fun _ => Memory.readByte_writeFree_outside m k r.size, fun w => Memory.writeFree_wf w r.base k r.size,
    fun _ => Memory.mem_writeFree⟩

/-- A byte of a range that lies apart from the range changed keeps its value. -/
theorem Memory.ChangesOnly.readByte_of_disjoint {r q : Span} {m m' : Memory} (changes : Memory.ChangesOnly r m m')
    (apart : q.overlaps r = false) {a : Nat} (inside : q.contains a = true) : m'.readByte a = m.readByte a := by
  refine changes.outside a ?_
  by_contra within
  have shared : r.contains a = true := by simp only [Span.contains, Bool.and_eq_true, decide_eq_true_eq]; omega
  exact absurd (Span.overlaps_of_contains inside shared) (by simp [apart])

end Sys2Proof.Machine

/-! ## The invariant -/

namespace Sys2Proof.Machine

/-- Settles O49: after reset memory is empty, and nothing is in flight, answered or recorded. -/
theorem invariantHoldsAtReset : Obligations.InvariantHoldsAtReset where
  params := rfl
  canonical := ⟨List.Pairwise.nil, fun _ cell => absurd cell List.not_mem_nil⟩
  inSpace _ cell := absurd cell List.not_mem_nil
  sound _ flying := absurd flying List.not_mem_nil
  compatible := List.Pairwise.nil
  statuses _ response := absurd response List.not_mem_nil
  recorded := .inl rfl

@[simp] theorem Status.ofCode_code (st : Status) : Status.ofCode st.code = some st := by cases st <;> rfl

theorem State.Inv.respond {s : State} (inv : s.Inv) (st : Status) (w : Word) : (s.respond st w).Inv :=
  { inv with statuses := List.forall_mem_cons.2 ⟨by simp, inv.statuses⟩ }

theorem State.Inv.respondIllegal {s : State} (inv : s.Inv) : s.respondIllegal.Inv :=
  { inv.respond .illegalRequest 0 with recorded := .inr rfl }

theorem State.Inv.fetched {s : State} (inv : s.Inv) (agent : Nat) (rest : List Word) (later : List Input) :
    (s.fetched agent rest later).Inv := { inv with }

/-- A change of memory inside the address space (20_memory.md R40). -/
theorem State.Inv.changeMemory {s : State} (inv : s.Inv) {r : Span} {m : Memory}
    (changes : Memory.ChangesOnly r s.mem m) (fits : r.base + r.size ≤ s.params.addrLimit) :
    State.Inv { s with mem := m } :=
  { inv with
    canonical := changes.canonical inv.canonical
    inSpace := fun c hc => (changes.listed c hc).elim (inv.inSpace c) fun within => by
      show c.1 < s.params.addrLimit
      omega }

/-- Requests may leave the list of those in flight. -/
theorem State.Inv.keepFlights {s : State} (inv : s.Inv) {fs : List Flight} (kept : fs.Sublist s.flights) :
    State.Inv { s with flights := fs } :=
  { inv with
    sound := fun f hf => inv.sound f (kept.subset hf)
    compatible := inv.compatible.sublist kept }

/-- A sound request of a requester with nothing in flight joins those it conflicts with in nothing
(20_memory.md R50, R51). -/
theorem State.Inv.launched {s : State} (inv : s.Inv) {t : Transfer} (sound : t.sound s.params)
    (clear : ∀ f ∈ s.flights, f.transfer.conflicts t = false) (idle : ∀ f ∈ s.flights, f.requester ≠ s.requester) :
    (s.launched t).Inv :=
  { inv with
    sound := List.forall_mem_append.2 ⟨inv.sound, List.forall_mem_singleton.2 sound⟩
    compatible := List.pairwise_append.2 ⟨inv.compatible, List.pairwise_singleton .., fun f hf _ hg => by
      rw [List.mem_singleton.1 hg]
      exact ⟨idle f hf, clear f hf⟩⟩ }

theorem State.Inv.completed {s : State} (inv : s.Inv) {t : Transfer} (sound : t.sound s.params) :
    (s.completed t).Inv :=
  ((inv.changeMemory (t.run_changesOnly s.params s.mem) (Transfer.dstWritten_fits sound)).keepFlights
    List.erase_sublist).respond .ok 0

theorem State.Inv.abandon {s : State} (inv : s.Inv) {f : Flight} (sound : f.transfer.sound s.params) :
    (s.abandon f).Inv :=
  { inv.changeMemory (Memory.writeFree_changesOnly s.mem f.transfer.dstWritten s.freeDraws)
      (Transfer.dstWritten_fits sound) with }

theorem State.Inv.foldl_abandon {s : State} (inv : s.Inv) {fs : List Flight}
    (sound : ∀ f ∈ fs, f.transfer.sound s.params) : (fs.foldl State.abandon s).Inv := by
  induction fs generalizing s with
  | nil => exact inv
  | cons f fs ih =>
    obtain ⟨first, others⟩ := List.forall_mem_cons.1 sound
    exact ih (inv.abandon first) others

theorem State.Inv.resetBlock {s : State} (inv : s.Inv) : s.resetBlock.Inv :=
  (inv.foldl_abandon inv.sound).keepFlights (List.nil_sublist _)

/-- `exec` for a requester with nothing in flight keeps the invariant. -/
theorem ExecChange.inv {s t : State} (change : ExecChange s t) (inv : s.Inv)
    (idle : ∀ f ∈ s.flights, f.requester ≠ s.requester) : t.Inv := by
  cases change with
  | answered st w => exact inv.respond st w
  | launched t sound clear => exact inv.launched sound clear idle
  | completed t flying => exact inv.completed (inv.sound _ flying)
  | stuck => exact inv

theorem StepChange.inv {s t : State} (change : StepChange s t) (inv : s.Inv) : t.Inv := by
  cases change with
  | waited => exact inv
  | answered f flying _ _ done =>
    subst done
    exact State.Inv.completed (s := { s with requester := f.requester }) { inv with } (inv.sound f flying)
  | ran agent _ later _ rest _ _ idle _ change =>
    exact change.inv (inv.fetched agent rest later) (State.outstanding_none idle)
  | illegal agent _ later rest => exact (inv.fetched agent rest later).respondIllegal
  | passed | drove | looked | mapped => exact { inv with }
  | wrote _ addr bytes _ _ inSpace =>
    exact { inv.changeMemory (Memory.writeBytes_changesOnly s.mem addr bytes) inSpace with }
  | wasReset => exact State.Inv.resetBlock { inv with }

/-- Settles O50: every kind of step keeps the invariant. -/
theorem stepKeepsTheInvariant : Obligations.StepKeepsTheInvariant :=
  fun _ _ inv stepped => (step_next stepped).1.inv inv

end Sys2Proof.Machine

/-! ## What changes memory -/

namespace Sys2Proof.Machine

/-- `exec` for a requester with nothing in flight changes no memory: a bulk request only starts
(60_exceptions.md R149). -/
theorem ExecChange.mem_of_idle {s t : State} (change : ExecChange s t)
    (idle : ∀ f ∈ s.flights, f.requester ≠ s.requester) : t.mem = s.mem := by
  cases change with
  | answered | launched | stuck => rfl
  | completed t flying => exact absurd rfl (idle _ flying)

/-- The steps that change memory: a host write that races with nothing in flight, a reset, and the completion of a
bulk request (20_memory.md R49, R51; 70_reset_and_hazards.md R161). -/
theorem StepChange.memory {s t : State} (change : StepChange s t) :
    t.mem = s.mem ∨
    (∃ agent addr bytes later, s.nextMove = some (.hostWrite agent addr bytes, later) ∧
      (∀ f ∈ s.flights, f.transfer.srcRead.overlaps ⟨addr, bytes.length⟩ = false ∧
        f.transfer.dstWritten.overlaps ⟨addr, bytes.length⟩ = false) ∧
      Memory.ChangesOnly ⟨addr, bytes.length⟩ s.mem t.mem) ∨
    (∃ later, s.nextMove = some (.resetBlock, later) ∧ t.flights = []) ∨
    ∃ f ∈ s.flights, t = State.completed { s with requester := f.requester } f.transfer := by
  cases change with
  | waited | illegal | passed | drove | looked | mapped => exact .inl rfl
  | ran _ _ _ _ _ _ _ idle _ change => exact .inl (change.mem_of_idle (State.outstanding_none idle))
  | wrote agent addr bytes later input _ clear =>
    exact .inr (.inl ⟨agent, addr, bytes, later, input, clear, Memory.writeBytes_changesOnly s.mem addr bytes⟩)
  | wasReset later input => exact .inr (.inr (.inl ⟨later, input, rfl⟩))
  | answered f flying _ _ done => exact .inr (.inr (.inr ⟨f, flying, done⟩))

/-- Settles O27: of the steps that change memory, the host write changes the bytes it wrote, and the completion those of
its destination elements. -/
theorem onlyTheseEventsChangeMemory : Obligations.OnlyTheseEventsChangeMemory := by
  intro s t stepped changed
  rcases (step_next stepped).1.memory with
    same | ⟨agent, addr, bytes, later, input, _, changes⟩ | ⟨later, input, _⟩ | ⟨f, flying, rfl⟩
  · exact absurd same changed
  · exact .inl ⟨agent, addr, bytes, later, input, changes.outside⟩
  · exact .inr (.inl ⟨later, input⟩)
  · exact .inr (.inr ⟨f, flying, rfl, rfl, (f.transfer.run_changesOnly s.params s.mem).outside⟩)

/-- Requests in flight belong to different requesters, so none is listed twice (20_memory.md R50). -/
theorem State.Inv.nodup_flights {s : State} (inv : s.Inv) : s.flights.Nodup :=
  inv.compatible.imp fun apart same => apart.1 (congrArg Flight.requester same)

/-- Two different requests in flight conflict in nothing, whichever is the older (20_memory.md R51). -/
theorem State.Inv.conflicts_eq_false {s : State} (inv : s.Inv) {f g : Flight} (hf : f ∈ s.flights)
    (hg : g ∈ s.flights) (ne : f ≠ g) : f.transfer.conflicts g.transfer = false := by
  have symm : Std.Symm fun f g : Flight => f.transfer.conflicts g.transfer = false :=
    ⟨fun f g => (Transfer.conflicts_comm g.transfer f.transfer).trans⟩
  exact (inv.compatible.imp And.right).forall hf hg ne

/-- What a transfer writes lies apart from both buffers of a transfer it does not conflict with. -/
theorem Transfer.buffers_apart_of_conflicts_eq_false {t u : Transfer} (clear : t.conflicts u = false) :
    t.srcRead.overlaps u.dstWritten = false ∧ t.dstWritten.overlaps u.dstWritten = false := by
  simp only [Transfer.conflicts, Bool.or_eq_false_iff] at clear
  exact ⟨clear.2, clear.1.1⟩

/-- Settles O51: a host write races with no request in flight, a reset leaves none in flight, and a completed request
is another one, which does not conflict with this. -/
theorem buffersInFlightAreStable : Obligations.BuffersInFlightAreStable := by
  intro s t f inv stepped flying still a inside
  rcases (step_next stepped).1.memory with
    same | ⟨_, addr, bytes, _, _, clear, changes⟩ | ⟨_, _, noFlights⟩ | ⟨g, completing, rfl⟩
  · rw [same]
  · obtain ⟨src, dst⟩ := clear f flying
    exact inside.elim (changes.readByte_of_disjoint src) (changes.readByte_of_disjoint dst)
  · simp [noFlights] at still
  · have ne : f ≠ g := by
      rintro rfl
      exact inv.nodup_flights.not_mem_erase still
    obtain ⟨src, dst⟩ := Transfer.buffers_apart_of_conflicts_eq_false (inv.conflicts_eq_false flying completing ne)
    have changes := g.transfer.run_changesOnly s.params s.mem
    exact inside.elim (changes.readByte_of_disjoint src) (changes.readByte_of_disjoint dst)

end Sys2Proof.Machine

/-! ## The start step turns a bad bulk request away -/

namespace Sys2Proof.Machine

/-- A bulk request that is not in flight is at its start step (60_exceptions.md R149). -/
theorem exec_instr_of_notFlying {t : Transfer} {s : State} (notFlying : (⟨s.requester, t⟩ : Flight) ∉ s.flights) :
    exec t.instr s = bulkStart t s := by
  rw [exec_instr, bulkStep, if_neg (by simpa using notFlying)]

/-- The start step of a request that fails a memory precondition is that fault. -/
theorem exec_instr_of_precondition {t : Transfer} {s : State} {fault : Fault}
    (notFlying : (⟨s.requester, t⟩ : Flight) ∉ s.flights) (fails : t.precondition s.params = some fault) :
    exec t.instr s = .fault fault := by
  rw [exec_instr_of_notFlying notFlying, bulkStart, fails]

theorem Span.fits_iff {r : Span} {limit : Nat} : r.fits limit = true ↔ r.base + r.size ≤ limit := decide_eq_true_iff

/-- Alignment is the first precondition (20_memory.md R43, 60_exceptions.md R145). -/
theorem Transfer.precondition_of_misaligned (p : Params) {t : Transfer}
    (misaligned : ¬ t.op.desize ∣ t.dst ∨ ¬ t.op.sesize ∣ t.src) : t.precondition p = some .misalignedBuffer := by
  rw [Transfer.precondition, if_pos]
  simpa only [ne_eq, ← Nat.dvd_iff_mod_eq_zero] using misaligned.symm

/-- The address space is the second precondition (20_memory.md R46). -/
theorem Transfer.precondition_of_wraps {p : Params} {t : Transfer} (dstAligned : t.op.desize ∣ t.dst)
    (srcAligned : t.op.sesize ∣ t.src)
    (wraps : p.addrLimit < t.dst + t.dstLen * t.op.desize ∨ p.addrLimit < t.src + t.srcLen * t.op.sesize) :
    t.precondition p = some .addressWrap := by
  rw [Transfer.precondition, if_neg, if_pos]
  · simpa only [Span.fits_iff, Nat.not_le, Transfer.srcDeclared, Transfer.dstDeclared] using wraps.symm
  · simp [Nat.mod_eq_zero_of_dvd, dstAligned, srcAligned]

/-- Disjoint declared ranges are the third precondition (20_memory.md R48). -/
theorem Transfer.precondition_of_overlap {p : Params} {t : Transfer} {a : Nat} (dstAligned : t.op.desize ∣ t.dst)
    (srcAligned : t.op.sesize ∣ t.src) (dstFits : t.dst + t.dstLen * t.op.desize ≤ p.addrLimit)
    (srcFits : t.src + t.srcLen * t.op.sesize ≤ p.addrLimit)
    (shared : t.dst ≤ a ∧ a < t.dst + t.dstLen * t.op.desize ∧ t.src ≤ a ∧ a < t.src + t.srcLen * t.op.sesize) :
    t.precondition p = some .overlappingBuffers := by
  obtain ⟨dstLow, dstHigh, srcLow, srcHigh⟩ := shared
  have overlap : t.srcDeclared.overlaps t.dstDeclared = true :=
    Span.overlaps_of_contains (a := a) (by simp [Span.contains, Transfer.srcDeclared, srcLow, srcHigh])
      (by simp [Span.contains, Transfer.dstDeclared, dstLow, dstHigh])
  rw [Transfer.precondition, if_neg, if_neg, if_pos overlap]
  · simpa only [Span.fits_iff, not_or, not_not] using ⟨srcFits, dstFits⟩
  · simp [Nat.mod_eq_zero_of_dvd, dstAligned, srcAligned]

/-- Settles O28: alignment is checked before everything else, whatever the lengths are. -/
theorem misalignedBufferFaults : Obligations.MisalignedBufferFaults := by
  refine fun s dst dstLen src srcLen => ⟨?_, ?_⟩ <;> intro notFlying misaligned <;>
    exact exec_instr_of_precondition notFlying (Transfer.precondition_of_misaligned s.params misaligned)

/-- Settles O29: with aligned bases the address space is checked next. -/
theorem wrappingBufferFaults : Obligations.WrappingBufferFaults := by
  refine fun s dst dstLen src srcLen => ⟨?_, ?_⟩ <;> intro notFlying dstAligned srcAligned wraps <;>
    exact exec_instr_of_precondition notFlying (Transfer.precondition_of_wraps dstAligned srcAligned wraps)

/-- Settles O30: the declared ranges are compared before CAP is read. -/
theorem overlappingBuffersFault : Obligations.OverlappingBuffersFault := by
  refine fun s dst dstLen src srcLen a => ⟨?_, ?_⟩ <;> intro notFlying dstAligned srcAligned dstFits srcFits shared <;>
    exact exec_instr_of_precondition notFlying
      (Transfer.precondition_of_overlap dstAligned srcAligned dstFits srcFits shared)

/-- The gate passes where CAP is driven, or for `H2S.MANY` where it is not gated (41_bulk_simd_conversion.md R119). -/
theorem BulkOp.gate_passes {s : State} {op : BulkOp}
    (gate : s.cap = true ∨ (op = .h2sMany ∧ s.params.h2sManyGated = false)) :
    ¬ (op.gated s.params = true ∧ s.cap = false) := by
  rintro ⟨gated, noCap⟩
  rcases gate with cap | ⟨rfl, ungated⟩
  · simp [cap] at noCap
  · simp [BulkOp.gated, ungated] at gated

/-- Two transfers conflict where one writes a byte that the other reads or writes (20_memory.md R51). -/
theorem Transfer.conflicts_of_contains {t u : Transfer} {a : Nat}
    (shared : (t.dstWritten.contains a ∧ (u.srcRead.contains a ∨ u.dstWritten.contains a)) ∨
      (t.srcRead.contains a ∧ u.dstWritten.contains a)) : t.conflicts u = true := by
  simp only [Transfer.conflicts, Bool.or_eq_true]
  rcases shared with ⟨written, read | written'⟩ | ⟨read, written⟩
  · exact .inl (.inr (Span.overlaps_of_contains written read))
  · exact .inl (.inl (Span.overlaps_of_contains written written'))
  · exact .inr (Span.overlaps_of_contains read written)

/-- Settles O33: past the preconditions and the gate, the start step looks for a conflict among those in flight. -/
theorem conflictingStartIsARace : Obligations.ConflictingStartIsARace := by
  intro s t f a notFlying sound gate flying shared
  have conflict : s.flights.any (fun f => f.transfer.conflicts t) = true :=
    List.any_eq_true.2 ⟨f, flying, Transfer.conflicts_of_contains shared⟩
  rw [exec_instr_of_notFlying notFlying, bulkStart, sound]
  simp only [if_neg (BulkOp.gate_passes gate), if_pos conflict]

end Sys2Proof.Machine

/-! ## What waits: a move behind its agent's request, and whatever reaches unadmitted memory -/

namespace Sys2Proof.Machine

/-- With every request in flight stuck and no move that can happen, the machine waits (10_state.md R21). -/
theorem step_waits {s : State} (unfaulted : s.recordedFault = none) (noMove : s.nextMove = none)
    (barred : ∀ f ∈ s.flights, s.admitsTransfer f.transfer = false) : step s = .next s := by
  have noneAble : s.oldestAdmitted = none := List.find?_eq_none.2 fun f hf => by simp [barred f hf]
  rw [step_of_noMove unfaulted noMove, serveOldest, noneAble]

/-- Settles O36: a byte that is not admitted keeps the completion step from happening. -/
theorem bulkRequestSticksOnUnadmittedMemory : Obligations.BulkRequestSticksOnUnadmittedMemory := by
  refine fun s => ⟨fun t q a flying hq ha reached => ?_, fun unfaulted noInputs reaching => ?_⟩
  · rw [exec_instr_of_flying flying]
    exact bulkComplete_of_stuck (State.admitsTransfer_of_barred hq ha reached)
  · refine step_waits unfaulted (by rw [State.nextMove, noInputs, State.firstMove]) fun f hf => ?_
    obtain ⟨q, hq, a, ha, reached⟩ := reaching f hf
    exact State.admitsTransfer_of_barred hq ha reached

/-- A requester's only request in flight is the one it waits for (20_memory.md R50). -/
theorem State.outstanding_of_only {s : State} {f : Flight} (flying : f ∈ s.flights)
    (only : ∀ g ∈ s.flights, g.requester = f.requester → g = f) : s.outstanding f.requester = some f := by
  cases found : s.outstanding f.requester with
  | none => exact absurd rfl (State.outstanding_none found f flying)
  | some g =>
    have its : g.requester = f.requester := by simpa using List.find?_some found
    rw [only g (State.outstanding_mem found) its]

/-- Settles O11: the move is not stuck, since its agent's request is not, and serving it completes that request. -/
theorem requesterWaitsForItsResponse : Obligations.RequesterWaitsForItsResponse := by
  intro s f i later unfaulted input flying waits only admitted
  have waitsForIt : i.waitsFor.bind s.outstanding = some f := by
    rw [waits, Option.bind_some, State.outstanding_of_only flying only]
  have free : s.moveStuck i = false := by simp [State.moveStuck, waitsForIt, admitted]
  rw [step_of_move unfaulted (State.nextMove_of_head input free), serveInput, waitsForIt]
  rfl

end Sys2Proof.Machine

/-! ## Host accesses that race with nothing -/

namespace Sys2Proof.Machine

/-- Ranges that share no byte do not overlap. -/
theorem Span.overlaps_eq_false_of_apart {r q : Span}
    (apart : ∀ a, q.base ≤ a → a < q.base + q.size → r.contains a = false) : r.overlaps q = false := by
  have shared := apart (max r.base q.base)
  simp only [Span.contains, Bool.and_eq_false_iff, decide_eq_false_iff_not] at shared
  rw [Span.overlaps_eq_false]
  omega

/-- A write that touches no buffer of a request in flight does not race (20_memory.md R51). -/
theorem State.writeRaces_of_apart {s : State} {r : Span}
    (apart : ∀ f ∈ s.flights, ∀ a, r.base ≤ a → a < r.base + r.size →
      f.transfer.srcRead.contains a = false ∧ f.transfer.dstWritten.contains a = false) : s.writeRaces r = false := by
  refine List.any_eq_false.2 fun f hf => ?_
  rw [Span.overlaps_eq_false_of_apart fun a low high => (apart f hf a low high).1,
    Span.overlaps_eq_false_of_apart fun a low high => (apart f hf a low high).2]
  decide

/-- A read that touches no destination of a request in flight does not race (20_memory.md R51). -/
theorem State.readRaces_of_apart {s : State} {r : Span}
    (apart : ∀ f ∈ s.flights, ∀ a, r.base ≤ a → a < r.base + r.size → f.transfer.dstWritten.contains a = false) :
    s.readRaces r = false := by
  refine List.any_eq_false.2 fun f hf => ?_
  rw [Span.overlaps_eq_false_of_apart (apart f hf)]
  decide

/-- A first move of an agent that waits for nothing is taken, if it is no stuck access (20_memory.md R50). -/
theorem step_takes {s : State} {i : Input} {later : List Input} (unfaulted : s.recordedFault = none)
    (input : s.inputs = i :: later) (idle : i.waitsFor.bind s.outstanding = none) (free : s.accessStuck i = false) :
    step s = takeInput i later s := by
  have canHappen : s.moveStuck i = false := by rw [State.moveStuck, idle, free]
  rw [step_of_move unfaulted (State.nextMove_of_head input canHappen), serveInput, idle]

theorem hostAccess_of_free {r : Span} {races : Bool} {s : State} (done : State)
    (fits : r.base + r.size ≤ s.params.addrLimit) (raceFree : races = false) :
    hostAccess r races done s = .next done := by
  rw [hostAccess, if_neg (not_not.2 (Span.fits_iff.2 fits)), raceFree]
  rfl

/-- Settles O45: such an access is not stuck, lies in the address space and races with nothing, so it is done. -/
theorem raceFreeHostAccessHappens : Obligations.RaceFreeHostAccessHappens := by
  intro s agent addr bytes len later unfaulted idle
  have waitsForNone : s.outstanding agent = none := State.outstanding_of_idle idle
  refine ⟨fun input fits admitted apart => ?_, fun input fits admitted apart => ?_⟩
  · have taken := step_takes unfaulted input waitsForNone (by simp [State.accessStuck, admitted])
    rw [taken, takeInput, hostAccess_of_free _ fits (State.writeRaces_of_apart apart)]
  · have taken := step_takes unfaulted input waitsForNone (by simp [State.accessStuck, admitted])
    rw [taken, takeInput, hostAccess_of_free _ fits (State.readRaces_of_apart apart)]

/-- Where the host's only move is a stuck access, no move can happen. -/
theorem State.nextMove_of_stuckAccess {s : State} {i : Input} (input : s.inputs = [i])
    (idle : i.waitsFor.bind s.outstanding = none) (stuck : s.accessStuck i = true) : s.nextMove = none := by
  have cannotHappen : s.moveStuck i = true := by rw [State.moveStuck, idle, stuck]
  simp [State.nextMove, input, State.firstMove, cannotHappen]

/-- Settles O56: such an access is stuck, and every request in flight with it, so the machine waits. -/
theorem unadmittedHostAccessDoesNotHappen : Obligations.UnadmittedHostAccessDoesNotHappen := by
  intro s agent addr bytes len unfaulted others
  have waitsForNone : s.outstanding agent = none := State.outstanding_of_idle fun g hg => (others g hg).1
  have barred := fun g hg => (others g hg).2
  refine ⟨fun input fits unadmitted apart => ?_, fun input fits unadmitted apart => ?_⟩
  · have raceFree := State.writeRaces_of_apart (r := ⟨addr, bytes.length⟩) apart
    have stuck : s.accessStuck (.hostWrite agent addr bytes) = true := by
      simpa [State.accessStuck, raceFree, unadmitted] using Span.fits_iff.2 fits
    exact step_waits unfaulted (State.nextMove_of_stuckAccess input waitsForNone stuck) barred
  · have raceFree := State.readRaces_of_apart (r := ⟨addr, len⟩) apart
    have stuck : s.accessStuck (.hostRead agent addr len) = true := by
      simpa [State.accessStuck, raceFree, unadmitted] using Span.fits_iff.2 fits
    exact step_waits unfaulted (State.nextMove_of_stuckAccess input waitsForNone stuck) barred

end Sys2Proof.Machine

/-! ## Headers -/

namespace Sys2Proof

/-- A header is its two fields, `OP` lowest (30_encoding.md R61). -/
theorem header_toNat (w0 : Word) : w0.toNat = (headerOp w0).toNat + 16 * (headerReserved w0).toNat := by
  simp only [headerOp, headerReserved, BitVec.extractLsb'_toNat]
  omega

/-- Each operation is selected by its own header alone (30_encoding.md R61, R62). -/
theorem Opcode.ofHeader_eq_some_iff {w0 : Word} {op : Opcode} : Opcode.ofHeader w0 = some op ↔ w0 = op.header := by
  refine ⟨fun selected => BitVec.eq_of_toNat_eq ?_, fun isHeader => isHeader ▸ Opcode.ofHeader_header op⟩
  rw [header_toNat]
  unfold Opcode.ofHeader at selected
  split at selected
  case isTrue => cases selected
  case isFalse reservedClear =>
    rw [not_not.1 reservedClear]
    split at selected <;> cases selected <;> simp [Opcode.header, *]

theorem Opcode.ofHeader_eq_none_iff {w0 : Word} :
    Opcode.ofHeader w0 = none ↔ w0 ≠ 1 ∧ w0 ≠ 2 ∧ w0 ≠ 3 ∧ w0 ≠ 4 := by
  simp only [Option.eq_none_iff_forall_ne_some, ne_eq, Opcode.ofHeader_eq_some_iff]
  refine ⟨fun others => ⟨others .h2s, others .s2h, others .h2sMany, others .s2hMany⟩, ?_⟩
  rintro ⟨h1, h2, h3, h4⟩ (_ | _ | _ | _) <;> assumption

end Sys2Proof

/-! ## What the decoder finds, by the header -/

namespace Sys2Proof

theorem decodeScalar_eq_request {mk : Word → Instr} {ws rest : List Word} {i : Instr}
    (decoded : decodeScalar mk ws = .request i rest) : ∃ w1, i = mk w1 ∧ ws = w1 :: rest := by
  cases ws with
  | nil => cases decoded
  | cons w1 ws => cases decoded; exact ⟨w1, rfl, rfl⟩

theorem decodeScalar_ne_reserved (mk : Word → Instr) (ws rest : List Word) : decodeScalar mk ws ≠ .reserved rest := by
  cases ws <;> exact Decoded.noConfusion

theorem decodeBulk_of_short {p : Params} (mk : Nat → Nat → Nat → Nat → Instr) {ws : List Word}
    (short : ws.length < 4 * p.addrWords) : decodeBulk p mk ws = .truncated :=
  if_pos short

theorem decodeBulk_of_enough {p : Params} (mk : Nat → Nat → Nat → Nat → Instr) {ws : List Word}
    (enough : 4 * p.addrWords ≤ ws.length) :
    decodeBulk p mk ws = .request (mk (operandAt p.addrWords 0 ws) (operandAt p.addrWords 1 ws)
      (operandAt p.addrWords 2 ws) (operandAt p.addrWords 3 ws)) (ws.drop (4 * p.addrWords)) :=
  if_neg (Nat.not_lt.2 enough)

theorem decodeBulk_ne_reserved (p : Params) (mk : Nat → Nat → Nat → Nat → Instr) (ws rest : List Word) :
    decodeBulk p mk ws ≠ .reserved rest := by
  rcases Nat.lt_or_ge ws.length (4 * p.addrWords) with short | enough
  · rw [decodeBulk_of_short mk short]; exact Decoded.noConfusion
  · rw [decodeBulk_of_enough mk enough]; exact Decoded.noConfusion

theorem decode_of_reserved {w0 : Word} (reserved : Opcode.ofHeader w0 = none) (p : Params) (ws : List Word) :
    decode p (w0 :: ws) = .reserved ws := by
  rw [decode, reserved]

/-- Only a header that selects no operation decodes as reserved (30_encoding.md R67). -/
theorem decode_eq_reserved_iff {p : Params} {w0 : Word} {ws : List Word} :
    decode p (w0 :: ws) = .reserved ws ↔ Opcode.ofHeader w0 = none := by
  refine ⟨fun decoded => ?_, fun reserved => decode_of_reserved reserved p ws⟩
  rw [decode] at decoded
  cases selected : Opcode.ofHeader w0 with
  | none => rfl
  | some op =>
    rw [selected] at decoded
    cases op with
    | h2s => exact absurd decoded (decodeScalar_ne_reserved _ _ _)
    | s2h => exact absurd decoded (decodeScalar_ne_reserved _ _ _)
    | h2sMany => exact absurd decoded (decodeBulk_ne_reserved _ _ _ _)
    | s2hMany => exact absurd decoded (decodeBulk_ne_reserved _ _ _ _)

/-- Words that decode to a request start with the header of an operation (30_encoding.md R61, R62). -/
theorem header_of_decode_eq_request {p : Params} {words rest : List Word} {i : Instr}
    (decoded : decode p words = .request i rest) : ∃ (op : Opcode) (ws : List Word), words = op.header :: ws := by
  cases words with
  | nil => cases decoded
  | cons w0 ws =>
    cases selected : Opcode.ofHeader w0 with
    | none => rw [decode_of_reserved selected] at decoded; cases decoded
    | some op => exact ⟨op, ws, by rw [Opcode.ofHeader_eq_some_iff.1 selected]⟩

end Sys2Proof

/-! ## Words that decode are the encoding -/

namespace Sys2Proof

theorem joinWords_lt (ws : List Word) : joinWords ws < 2 ^ (32 * ws.length) := by
  induction ws with
  | nil => exact Nat.one_pos
  | cons w ws ih =>
    rw [joinWords, List.length_cons, Nat.mul_succ, Nat.pow_add]
    have low := w.isLt
    omega

theorem splitWords_joinWords {k : Nat} {ws : List Word} (length : ws.length = k) :
    splitWords k (joinWords ws) = ws := by
  subst length
  induction ws with
  | nil => rfl
  | cons w ws ih =>
    have low : BitVec.ofNat 32 (w.toNat + 2 ^ 32 * joinWords ws) = w :=
      BitVec.eq_of_toNat_eq (by rw [BitVec.toNat_ofNat, Nat.add_mul_mod_self_left, Nat.mod_eq_of_lt w.isLt])
    have high : (w.toNat + 2 ^ 32 * joinWords ws) / 2 ^ 32 = joinWords ws := by
      rw [Nat.add_mul_div_left _ _ (by decide), Nat.div_eq_of_lt w.isLt, Nat.zero_add]
    rw [joinWords, List.length_cons, splitWords, low, high, ih]

/-- Every operand the decoder reads fits its words (30_encoding.md R64). -/
theorem fitsOperand_operandAt (p : Params) (j : Nat) (ws : List Word) :
    p.fitsOperand (operandAt p.addrWords j ws) = true := by
  refine decide_eq_true ((joinWords_lt _).trans_le (Nat.pow_le_pow_right (by decide) ?_))
  exact Nat.mul_le_mul_left 32 (List.length_take_le _ _)

/-- The words of operand `j` are where it was read (30_encoding.md R64). -/
theorem splitWords_operandAt_append {k j : Nat} {ws : List Word} (enough : (j + 1) * k ≤ ws.length) :
    splitWords k (operandAt k j ws) ++ ws.drop ((j + 1) * k) = ws.drop (j * k) := by
  rw [Nat.succ_mul] at enough ⊢
  rw [operandAt, splitWords_joinWords (by simp; omega), ← List.drop_drop, List.take_append_drop]

theorem decodeBulk_eq_request {p : Params} {mk : Nat → Nat → Nat → Nat → Instr} {ws rest : List Word} {i : Instr}
    (decoded : decodeBulk p mk ws = .request i rest) :
    ∃ a b c d, i = mk a b c d ∧ (p.fitsOperand a && p.fitsOperand b && p.fitsOperand c && p.fitsOperand d) = true ∧
      ws = splitWords p.addrWords a ++ splitWords p.addrWords b ++ splitWords p.addrWords c ++
        splitWords p.addrWords d ++ rest := by
  rcases Nat.lt_or_ge ws.length (4 * p.addrWords) with short | enough
  · rw [decodeBulk_of_short mk short] at decoded
    cases decoded
  · rw [decodeBulk_of_enough mk enough] at decoded
    cases decoded
    refine ⟨_, _, _, _, rfl, by simp only [fitsOperand_operandAt, Bool.and_self], ?_⟩
    have read (j : Nat) (operand : j < 4) := splitWords_operandAt_append (k := p.addrWords) (ws := ws)
      ((Nat.mul_le_mul_right _ (Nat.succ_le_of_lt operand)).trans enough)
    simp only [List.append_assoc]
    rw [read 3 (by decide), read 2 (by decide), read 1 (by decide), read 0 (by decide), Nat.zero_mul, List.drop_zero]

end Sys2Proof

/-! ## The assembler -/

namespace Sys2Proof

/-- How many literals a source line of the operation has (30_encoding.md R68). -/
def Opcode.literals : Opcode → Nat
  | .h2s => 1
  | .s2h => 1
  | .h2sMany => 4
  | .s2hMany => 4

theorem assemble_of_wrongCount {op : Opcode} {operands : List Nat} (wrong : operands.length ≠ op.literals) (p : Params) :
    assemble p op operands = none := by
  unfold assemble
  split
  case h_5 => rfl
  all_goals exact absurd rfl wrong

theorem Params.fitsOperand_iff {p : Params} {v : Nat} : p.fitsOperand v = true ↔ v < 2 ^ p.addrWidth :=
  decide_eq_true_iff

theorem Params.all_fitsOperand_iff {p : Params} {a b c d : Nat} :
    [a, b, c, d].all p.fitsOperand = true ↔
      a < 2 ^ p.addrWidth ∧ b < 2 ^ p.addrWidth ∧ c < 2 ^ p.addrWidth ∧ d < 2 ^ p.addrWidth := by
  simp only [List.all_cons, List.all_nil, Bool.and_true, Bool.and_eq_true, Params.fitsOperand_iff]

/-- The mnemonic of an operation, in lower case (30_encoding.md R68). -/
def Opcode.mnemonic : Opcode → List Char
  | .h2s => ['h', '2', 's']
  | .s2h => ['s', '2', 'h']
  | .h2sMany => ['h', '2', 's', '.', 'm', 'a', 'n', 'y']
  | .s2hMany => ['s', '2', 'h', '.', 'm', 'a', 'n', 'y']

theorem Opcode.ofMnemonic_eq_some_iff {name : List Char} {op : Opcode} :
    Opcode.ofMnemonic name = some op ↔ name.map Char.toLower = op.mnemonic := by
  rw [Opcode.ofMnemonic]
  generalize name.map Char.toLower = low
  constructor
  · intro named
    split_ifs at named <;> cases named <;> assumption
  · rintro rfl
    cases op <;> rfl

theorem Opcode.ofMnemonic_map_toUpper (name : List Char) :
    Opcode.ofMnemonic (name.map Char.toUpper) = Opcode.ofMnemonic name := by
  have sameLetters : (name.map Char.toUpper).map Char.toLower = name.map Char.toLower := by
    simp only [List.map_map, Function.comp_def, Char.toLower_toUpper_eq_toLower]
  rw [Opcode.ofMnemonic, Opcode.ofMnemonic, sameLetters]

end Sys2Proof

/-! ## The encoding's statements -/

namespace Sys2Proof.Machine

/-- Settles O2: each operand is split into its words and joined again from the place where the decoder reads it. -/
theorem encodedRequestDecodesBack : Obligations.EncodedRequestDecodesBack :=
  fun _ _ rest fits => decode_encode_append fits rest

/-- Settles O3: a header that is not reserved is its operation's, and each operand is joined from its own words. -/
theorem decodedWordsAreTheEncoding : Obligations.DecodedWordsAreTheEncoding := by
  intro p ws i rest decoded
  obtain ⟨op, ws, rfl⟩ := header_of_decode_eq_request decoded
  cases op with
  | h2s =>
    obtain ⟨w1, rfl, rfl⟩ := decodeScalar_eq_request decoded
    have halves : w1.extractLsb' 16 16 ++ w1.setWidth 16 = w1 := BitVec.extractLsb'_append_extractLsb'
    exact ⟨rfl, w1.extractLsb' 16 16, by rw [halves]; rfl⟩
  | s2h =>
    obtain ⟨w1, rfl, rfl⟩ := decodeScalar_eq_request decoded
    exact ⟨rfl, rfl⟩
  | h2sMany =>
    obtain ⟨a, b, c, d, rfl, fits, rfl⟩ := decodeBulk_eq_request decoded
    exact ⟨fits, rfl⟩
  | s2hMany =>
    obtain ⟨a, b, c, d, rfl, fits, rfl⟩ := decodeBulk_eq_request decoded
    exact ⟨fits, rfl⟩

/-- Settles O4: each header selects its operation, whose operand words are counted; every other header selects none. -/
theorem requestLengthFollowsFromHeader : Obligations.RequestLengthFollowsFromHeader := by
  intro p w0 ws
  have operandWords : p.addrWidth / 32 = p.addrWords := Nat.mul_div_cancel_left _ (by decide)
  rw [operandWords]
  refine ⟨?_, ?_, fun others => decode_of_reserved (Opcode.ofHeader_eq_none_iff.2 others) p ws⟩
  · rintro (rfl | rfl) <;> exact ⟨fun empty => empty ▸ rfl, fun w1 rest words => words ▸ ⟨_, rfl⟩⟩
  · rintro (rfl | rfl) <;> exact ⟨decodeBulk_of_short _, fun enough => ⟨_, decodeBulk_of_enough _ enough⟩⟩

/-- Settles O5: a header selects no operation where it is 0 or at least 5, and those are the headers with a bit set
above `OP` or with such an `OP`. -/
theorem reservedHeadersAreExactlyThese : Obligations.ReservedHeadersAreExactlyThese := by
  intro p w0 ws
  have reservedField : (w0 >>> 4).toNat = w0.toNat / 16 := by rw [BitVec.toNat_ushiftRight, Nat.shiftRight_eq_div_pow]
  have opField : (w0 &&& 0xF).toNat = w0.toNat % 16 := by
    rw [BitVec.toNat_and]
    exact Nat.and_two_pow_sub_one_eq_mod _ 4
  rw [decode_eq_reserved_iff, Opcode.ofHeader_eq_none_iff, opField]
  simp only [ne_eq, ← BitVec.toNat_inj, reservedField, BitVec.reduceToNat]
  omega

/-- Settles O1: the words of P1, P2 and P4 are the encodings of their requests, and the headers of E5, E8 and E9 select
no operation. -/
theorem listedRequestWordsDecode : Obligations.ListedRequestWordsDecode :=
  ⟨decode_encode (i := .h2s 0x3555) rfl, decode_encode_append (i := .s2h 0x3EAAA000) rfl [0x00000002],
    decode_encode (i := .h2sMany 0x1000 17 0x2000 17) rfl, decode_encode (i := .s2hMany 0x1000 4 0x2000 5) rfl,
    decode_of_reserved (by decide) {} [7], decode_of_reserved (by decide) {} [7],
    decode_of_reserved (by decide) {} [7]⟩

/-- Settles O6: the low half of a word is its first 16 bits, and a scalar operation answers without a condition. -/
theorem scalarOperandWord : Obligations.ScalarOperandWord :=
  fun _ _ _ _ => ⟨rfl, rfl, ⟨_, rfl⟩, ⟨_, rfl⟩⟩

/-- Settles O7: a bulk line is taken where all four literals fit, and no operation takes another number of literals. -/
theorem assemblerRefusesLargeLiterals : Obligations.AssemblerRefusesLargeLiterals := by
  intro p v dst dstLen src srcLen operands
  refine ⟨rfl, rfl, fun fit => ?_, fun large => ?_, fun wrong => ?_, fun wrong => ?_⟩
  · exact ⟨if_pos (Params.all_fitsOperand_iff.2 fit), if_pos (Params.all_fitsOperand_iff.2 fit)⟩
  · have refused : ¬ [dst, dstLen, src, srcLen].all p.fitsOperand = true := by
      rw [Params.all_fitsOperand_iff]
      omega
    exact ⟨if_neg refused, if_neg refused⟩
  · exact ⟨assemble_of_wrongCount wrong p, assemble_of_wrongCount wrong p⟩
  · exact ⟨assemble_of_wrongCount wrong p, assemble_of_wrongCount wrong p⟩

/-- Settles O54: the four mnemonics differ, and a name in upper case has the lower case of the name. -/
theorem mnemonicsNameTheOperations : Obligations.MnemonicsNameTheOperations :=
  fun name => ⟨Opcode.ofMnemonic_eq_some_iff, Opcode.ofMnemonic_eq_some_iff, Opcode.ofMnemonic_eq_some_iff,
    Opcode.ofMnemonic_eq_some_iff, Opcode.ofMnemonic_map_toUpper name⟩

end Sys2Proof.Machine

/-! ## The fields of the two patterns -/

namespace Sys2Proof

/-- The bits of a binary16 pattern below its sign: exponent and mantissa together (00_scope.md R9). -/
def Half.low (h : Half) : Nat := h.toNat % 2 ^ 15

/-- The bits of a binary32 pattern below its sign: exponent and mantissa together (00_scope.md R10). -/
def Single.low (x : Single) : Nat := x.toNat % 2 ^ 31

theorem Half.low_lt (h : Half) : h.low < 2 ^ 15 := Nat.mod_lt _ (by decide)

theorem Half.exp_toNat (h : Half) : h.exp.toNat = h.low / 2 ^ 10 := by
  simp only [Half.exp, Half.low, BitVec.extractLsb'_toNat, Nat.shiftRight_eq_div_pow]
  omega

theorem Half.man_toNat (h : Half) : h.man.toNat = h.low % 2 ^ 10 := by
  simp only [Half.man, Half.low, BitVec.extractLsb'_toNat, Nat.shiftRight_zero]
  omega

theorem Half.low_eq (h : Half) : h.low = h.exp.toNat * 2 ^ 10 + h.man.toNat := by
  rw [h.exp_toNat, h.man_toNat, Nat.div_add_mod']

theorem Half.toNat_eq (h : Half) : h.toNat = h.sign.toNat * 2 ^ 15 + h.low := by
  simp only [Half.sign, Half.low, BitVec.extractLsb'_toNat, Nat.shiftRight_eq_div_pow]
  omega

theorem Half.eq_of_low_eq {h g : Half} (sign : h.sign = g.sign) (low : h.low = g.low) : h = g :=
  BitVec.eq_of_toNat_eq (by rw [h.toNat_eq, g.toNat_eq, sign, low])

theorem Half.signed_toNat (s : BitVec 1) {n : Nat} (fits : n < 2 ^ 15) :
    (Half.signed s n).toNat = s.toNat <<< 15 ||| n := by
  rw [Half.signed, BitVec.toNat_append, BitVec.toNat_ofNat, Nat.mod_eq_of_lt fits]

theorem Half.low_signed (s : BitVec 1) {n : Nat} (fits : n < 2 ^ 15) : (Half.signed s n).low = n := by
  rw [Half.low, Half.signed_toNat s fits, ← Nat.shiftLeft_add_eq_or_of_lt fits, Nat.shiftLeft_eq]
  omega

theorem Half.low_ofNat {n : Nat} (fits : n < 2 ^ 15) : Half.low (BitVec.ofNat 16 n) = n := by
  rw [Half.low, BitVec.toNat_ofNat]
  omega

@[simp] theorem Half.sign_signed (s : BitVec 1) (n : Nat) : (Half.signed s n).sign = s :=
  BitVec.extractLsb'_append_eq_left

@[simp] theorem Half.signed_sign_low (h : Half) : Half.signed h.sign h.low = h :=
  Half.eq_of_low_eq (Half.sign_signed ..) (Half.low_signed _ h.low_lt)

/-- Where the exponent is all ones, the three fields side by side. -/
theorem Half.toNat_of_ones {h : Half} (exp : h.exp = 0x1F) :
    h.toNat = h.sign.toNat <<< 15 ||| (0x7C00 ||| h.man.toNat) := by
  have low : h.low = 0x7C00 ||| h.man.toNat := by
    rw [h.low_eq, exp]
    exact Nat.shiftLeft_add_eq_or_of_lt h.man.isLt 0x1F
  rw [← low, ← Half.signed_toNat _ h.low_lt, Half.signed_sign_low]

theorem Single.low_lt (x : Single) : x.low < 2 ^ 31 := Nat.mod_lt _ (by decide)

theorem Single.exp_toNat (x : Single) : x.exp.toNat = x.low / 2 ^ 23 := by
  simp only [Single.exp, Single.low, BitVec.extractLsb'_toNat, Nat.shiftRight_eq_div_pow]
  omega

theorem Single.man_toNat (x : Single) : x.man.toNat = x.low % 2 ^ 23 := by
  simp only [Single.man, Single.low, BitVec.extractLsb'_toNat, Nat.shiftRight_zero]
  omega

theorem Single.toNat_eq (x : Single) : x.toNat = x.sign.toNat * 2 ^ 31 + x.low := by
  simp only [Single.sign, Single.low, BitVec.extractLsb'_toNat, Nat.shiftRight_eq_div_pow]
  omega

theorem Single.eq_of_low_eq {x y : Single} (sign : x.sign = y.sign) (low : x.low = y.low) : x = y :=
  BitVec.eq_of_toNat_eq (by rw [x.toNat_eq, y.toNat_eq, sign, low])

theorem Single.low_eq (x : Single) : x.low = x.exp.toNat * 2 ^ 23 + x.man.toNat := by
  rw [x.exp_toNat, x.man_toNat, Nat.div_add_mod']

@[simp] theorem Single.sign_pack (s : BitVec 1) (e : BitVec 8) (m : BitVec 23) : (Single.pack s e m).sign = s := by
  rw [Single.pack, Single.sign, BitVec.append_assoc]
  exact BitVec.extractLsb'_append_eq_left

@[simp] theorem Single.exp_pack (s : BitVec 1) (e : BitVec 8) (m : BitVec 23) : (Single.pack s e m).exp = e := by
  rw [Single.pack, Single.exp, BitVec.extractLsb'_append_eq_of_le (by decide)]
  exact BitVec.extractLsb'_append_eq_right

@[simp] theorem Single.man_pack (s : BitVec 1) (e : BitVec 8) (m : BitVec 23) : (Single.pack s e m).man = m :=
  BitVec.extractLsb'_append_eq_right

theorem Single.low_pack (s : BitVec 1) (e : BitVec 8) (m : BitVec 23) :
    (Single.pack s e m).low = e.toNat * 2 ^ 23 + m.toNat := by
  rw [Single.low_eq, Single.exp_pack, Single.man_pack]

/-- The fields packed by shifts, as the rules write a result. -/
theorem Single.pack_eq_or (s : BitVec 1) (e : BitVec 8) (m : BitVec 23) :
    Single.pack s e m = (s.setWidth 32 <<< 31) ||| (e.setWidth 32 <<< 23) ||| m.setWidth 32 :=
  (BitVec.setWidth_eq _).symm.trans BitVec.setWidth_append_append_eq_shiftLeft_setWidth_or

end Sys2Proof

/-! ## Magnitudes and their order -/

namespace Sys2Proof

/-- What the order of the magnitudes of a format depends on (00_scope.md R11): how many bits the mantissa has, the
pattern of the positive infinity, and the least magnitude above 0 in units of `2^-149`. -/
structure FloatFormat where
  manBits : Nat
  infinity : Nat
  unit : Nat
  unit_pos : 0 < unit := by decide

/-- binary16 (00_scope.md R9, R11). -/
def binary16 : FloatFormat where
  manBits := 10
  infinity := 0x7C00
  unit := 2 ^ 125

/-- binary32 (00_scope.md R10, R11). -/
def binary32 : FloatFormat where
  manBits := 23
  infinity := 0x7F800000
  unit := 1

/-- The magnitude of the pattern with these bits below its sign, as if no exponent were that of the infinities. -/
def FloatFormat.magnitude (F : FloatFormat) (low : Nat) : Nat :=
  (if low / 2 ^ F.manBits = 0 then low % 2 ^ F.manBits
    else (2 ^ F.manBits + low % 2 ^ F.manBits) * 2 ^ (low / 2 ^ F.manBits - 1)) * F.unit

/-- The magnitude of the pattern with these bits below its sign, that of the infinities being `⊤`. -/
def FloatFormat.size (F : FloatFormat) (low : Nat) : WithTop Nat :=
  if low < F.infinity then (F.magnitude low : WithTop Nat) else ⊤

theorem FloatFormat.magnitude_subnormal (F : FloatFormat) {m : Nat} (man : m < 2 ^ F.manBits) :
    F.magnitude m = m * F.unit := by
  rw [FloatFormat.magnitude, if_pos (Nat.div_eq_of_lt man), Nat.mod_eq_of_lt man]

theorem FloatFormat.magnitude_normal (F : FloatFormat) (e : Nat) {m : Nat} (man : m < 2 ^ F.manBits) :
    F.magnitude ((e + 1) * 2 ^ F.manBits + m) = (2 ^ F.manBits + m) * 2 ^ e * F.unit := by
  have exponent : ((e + 1) * 2 ^ F.manBits + m) / 2 ^ F.manBits = e + 1 := by
    rw [Nat.add_comm, Nat.add_mul_div_right _ _ (Nat.two_pow_pos _), Nat.div_eq_of_lt man, Nat.zero_add]
  have mantissa : ((e + 1) * 2 ^ F.manBits + m) % 2 ^ F.manBits = m := by
    rw [Nat.add_comm, Nat.add_mul_mod_self_right, Nat.mod_eq_of_lt man]
  rw [FloatFormat.magnitude, exponent, mantissa, if_neg (Nat.succ_ne_zero e), Nat.add_sub_cancel]

/-- Neighbouring patterns lie one unit of their exponent apart, also where the exponent changes. -/
theorem FloatFormat.magnitude_succ (F : FloatFormat) (n : Nat) :
    F.magnitude (n + 1) = F.magnitude n + 2 ^ (n / 2 ^ F.manBits - 1) * F.unit := by
  have pos := Nat.two_pow_pos F.manBits
  obtain ⟨m, man, e, rfl⟩ : ∃ m < 2 ^ F.manBits, ∃ e, n = e * 2 ^ F.manBits + m :=
    ⟨_, Nat.mod_lt n pos, _, (Nat.div_add_mod' n _).symm⟩
  have exponent : (e * 2 ^ F.manBits + m) / 2 ^ F.manBits = e := by
    rw [Nat.add_comm, Nat.add_mul_div_right _ _ pos, Nat.div_eq_of_lt man, Nat.zero_add]
  rw [exponent]
  rcases Nat.lt_or_ge (m + 1) (2 ^ F.manBits) with inside | last
  · rcases e with _ | e
    · rw [Nat.zero_mul, Nat.zero_add, F.magnitude_subnormal man, F.magnitude_subnormal inside]
      ring
    · rw [Nat.add_assoc, F.magnitude_normal e man, F.magnitude_normal e inside, Nat.add_sub_cancel]
      ring
  · have full : 2 ^ F.manBits = m + 1 := by omega
    have next : e * 2 ^ F.manBits + m + 1 = (e + 1) * 2 ^ F.manBits + 0 := by rw [full]; ring
    rw [next, F.magnitude_normal e pos]
    rcases e with _ | e
    · rw [Nat.zero_mul, Nat.zero_add, F.magnitude_subnormal man, full]
      ring
    · rw [F.magnitude_normal e man, Nat.add_sub_cancel, full]
      ring

theorem FloatFormat.magnitude_strictMono (F : FloatFormat) : StrictMono F.magnitude :=
  strictMono_nat_of_lt_succ fun n => by
    rw [F.magnitude_succ]
    exact Nat.lt_add_of_pos_right (Nat.mul_pos (Nat.two_pow_pos _) F.unit_pos)

@[simp] theorem FloatFormat.magnitude_zero (F : FloatFormat) : F.magnitude 0 = 0 := by
  rw [F.magnitude_subnormal (Nat.two_pow_pos _), Nat.zero_mul]

theorem FloatFormat.size_of_finite {F : FloatFormat} {n : Nat} (finite : n < F.infinity) :
    F.size n = (F.magnitude n : WithTop Nat) :=
  if_pos finite

@[simp] theorem FloatFormat.size_infinity (F : FloatFormat) : F.size F.infinity = ⊤ :=
  if_neg (Nat.lt_irrefl _)

theorem FloatFormat.size_strictMonoOn (F : FloatFormat) : StrictMonoOn F.size (Set.Iic F.infinity) := by
  intro a _ b number less
  have finite : a < F.infinity := less.trans_le number
  rw [F.size_of_finite finite]
  rcases Nat.lt_or_eq_of_le number with finite | rfl
  · rw [F.size_of_finite finite]
    exact WithTop.coe_lt_coe.2 (F.magnitude_strictMono less)
  · rw [F.size_infinity]
    exact WithTop.coe_lt_top _

theorem FloatFormat.size_le_size_iff {F : FloatFormat} {a b : Nat} (numberA : a ≤ F.infinity)
    (numberB : b ≤ F.infinity) : F.size a ≤ F.size b ↔ a ≤ b :=
  F.size_strictMonoOn.le_iff_le numberA numberB

theorem FloatFormat.eq_of_size_eq {F : FloatFormat} {a b : Nat} (numberA : a ≤ F.infinity)
    (numberB : b ≤ F.infinity) (same : F.size a = F.size b) : a = b :=
  F.size_strictMonoOn.injOn numberA numberB same

theorem binary16_magnitude_subnormal {m : Nat} (man : m < 2 ^ 10) : binary16.magnitude m = m * 2 ^ 125 :=
  binary16.magnitude_subnormal man

theorem binary16_magnitude_normal (e : Nat) {m : Nat} (man : m < 2 ^ 10) :
    binary16.magnitude ((e + 1) * 2 ^ 10 + m) = (2 ^ 10 + m) * 2 ^ e * 2 ^ 125 :=
  binary16.magnitude_normal e man

theorem binary16_magnitude_succ (n : Nat) :
    binary16.magnitude (n + 1) = binary16.magnitude n + 2 ^ (n / 2 ^ 10 - 1) * 2 ^ 125 :=
  binary16.magnitude_succ n

theorem binary32_magnitude_subnormal {m : Nat} (man : m < 2 ^ 23) : binary32.magnitude m = m :=
  (binary32.magnitude_subnormal man).trans (Nat.mul_one m)

theorem binary32_magnitude_normal (e : Nat) {m : Nat} (man : m < 2 ^ 23) :
    binary32.magnitude ((e + 1) * 2 ^ 23 + m) = (2 ^ 23 + m) * 2 ^ e :=
  (binary32.magnitude_normal e man).trans (Nat.mul_one _)

end Sys2Proof

/-! ## Values and their order -/

namespace Sys2Proof

/-- The value with this sign bit and this magnitude, infinity among them. -/
def Value.signed (s : BitVec 1) : WithTop Nat → Value
  | ⊤ => Value.infinite s
  | some m => Value.finite s m

@[simp] theorem Value.signed_top (s : BitVec 1) : Value.signed s ⊤ = Value.infinite s := rfl

@[simp] theorem Value.signed_coe (s : BitVec 1) (m : Nat) : Value.signed s (m : WithTop Nat) = Value.finite s m := rfl

/-- The finite values are the integers. -/
def Value.ofInt (n : Int) : Value := ((n : WithTop Int) : Value)

@[simp] theorem Value.ofInt_le_ofInt {m n : Int} : Value.ofInt m ≤ Value.ofInt n ↔ m ≤ n :=
  WithBot.coe_le_coe.trans WithTop.coe_le_coe

@[simp] theorem Value.ofInt_ne_top (n : Int) : Value.ofInt n ≠ ⊤ :=
  fun top => WithTop.coe_ne_top (WithBot.coe_injective top)

@[simp] theorem Value.ofInt_ne_bot (n : Int) : Value.ofInt n ≠ ⊥ := WithBot.coe_ne_bot

@[simp] theorem Value.infinite_zero : Value.infinite 0#1 = ⊤ := rfl

@[simp] theorem Value.infinite_one : Value.infinite 1#1 = ⊥ := rfl

@[simp] theorem Value.finite_zero (m : Nat) : Value.finite 0#1 m = Value.ofInt m := rfl

@[simp] theorem Value.finite_one (m : Nat) : Value.finite 1#1 m = Value.ofInt (-m) := rfl

theorem Value.signed_zero_le_zero {a b : WithTop Nat} : Value.signed 0#1 a ≤ Value.signed 0#1 b ↔ a ≤ b := by
  induction a <;> induction b <;> simp

theorem Value.signed_one_le_one {a b : WithTop Nat} : Value.signed 1#1 a ≤ Value.signed 1#1 b ↔ b ≤ a := by
  induction a <;> induction b <;> simp

theorem Value.signed_one_le_zero (a b : WithTop Nat) : Value.signed 1#1 a ≤ Value.signed 0#1 b := by
  induction a <;> induction b <;> simp

/-- A value with sign bit 0 is at most one with sign bit 1 only where both are zeros. -/
theorem Value.signed_zero_le_one {a b : WithTop Nat} :
    Value.signed 0#1 a ≤ Value.signed 1#1 b ↔ a = 0 ∧ b = 0 := by
  induction a <;> induction b <;> simp
  omega

/-- What keeps the order of magnitudes and keeps 0 keeps the order of values. -/
theorem Value.signed_le_signed_of {s t : BitVec 1} {a b a' b' : WithTop Nat} (up : a ≤ b → a' ≤ b')
    (down : b ≤ a → b' ≤ a') (zeroLeft : a = 0 → a' = 0) (zeroRight : b = 0 → b' = 0)
    (le : Value.signed s a ≤ Value.signed t b) : Value.signed s a' ≤ Value.signed t b' := by
  rcases BitVec.eq_zero_or_eq_one s with rfl | rfl <;> rcases BitVec.eq_zero_or_eq_one t with rfl | rfl
  · exact Value.signed_zero_le_zero.2 (up (Value.signed_zero_le_zero.1 le))
  · exact Value.signed_zero_le_one.2 ((Value.signed_zero_le_one.1 le).imp zeroLeft zeroRight)
  · exact Value.signed_one_le_zero _ _
  · exact Value.signed_one_le_one.2 (down (Value.signed_one_le_one.1 le))

/-- Equal values have equal magnitudes; their signs may differ at 0. -/
theorem Value.eq_of_signed_eq {s t : BitVec 1} {a b : WithTop Nat} (same : Value.signed s a = Value.signed t b) :
    a = b := by
  have le := same.le
  have ge := same.ge
  rcases BitVec.eq_zero_or_eq_one s with rfl | rfl <;> rcases BitVec.eq_zero_or_eq_one t with rfl | rfl
  · exact le_antisymm (Value.signed_zero_le_zero.1 le) (Value.signed_zero_le_zero.1 ge)
  · obtain ⟨rfl, rfl⟩ := Value.signed_zero_le_one.1 le
    rfl
  · obtain ⟨rfl, rfl⟩ := Value.signed_zero_le_one.1 ge
    rfl
  · exact le_antisymm (Value.signed_one_le_one.1 ge) (Value.signed_one_le_one.1 le)

end Sys2Proof

/-! ## The categories and values of the two patterns -/

namespace Sys2Proof

theorem Half.finite_iff {h : Half} : h.exp ≠ 0x1F ↔ h.low < 0x7C00 := by
  have bound := h.low_lt
  simp only [ne_eq, ← BitVec.toNat_inj, h.exp_toNat, BitVec.reduceToNat]
  omega

theorem Half.infinite_iff {h : Half} : h.exp = 0x1F ∧ h.man = 0 ↔ h.low = 0x7C00 := by
  have bound := h.low_lt
  simp only [← BitVec.toNat_inj, h.exp_toNat, h.man_toNat, BitVec.reduceToNat]
  omega

theorem Half.nan_iff {h : Half} : h.exp = 0x1F ∧ h.man ≠ 0 ↔ 0x7C00 < h.low := by
  have bound := h.low_lt
  simp only [ne_eq, ← BitVec.toNat_inj, h.exp_toNat, h.man_toNat, BitVec.reduceToNat]
  omega

theorem Half.category_eq_nan_iff {h : Half} : h.category = .nan ↔ 0x7C00 < h.low := by
  rw [← Half.nan_iff, Half.category]
  split_ifs <;> simp_all

theorem Half.category_ne_nan_iff {h : Half} : h.category ≠ .nan ↔ h.low ≤ 0x7C00 := by
  rw [ne_eq, Half.category_eq_nan_iff, Nat.not_lt]

theorem Half.category_eq_infinity_iff {h : Half} : h.category = .infinity ↔ h.low = 0x7C00 := by
  rw [← Half.infinite_iff, Half.category]
  split_ifs <;> simp_all

theorem Half.category_eq_subnormal_iff {h : Half} : h.category = .subnormal ↔ h.exp = 0 ∧ h.man ≠ 0 := by
  rw [Half.category]
  split_ifs <;> simp_all

theorem Half.magnitude_eq (h : Half) : h.magnitude * 2 ^ 125 = binary16.magnitude h.low := by
  simp only [Half.magnitude, ← BitVec.toNat_inj, h.exp_toNat, h.man_toNat, BitVec.reduceToNat]
  rfl

theorem Half.value_of_finite {h : Half} (finite : h.exp ≠ 0x1F) :
    h.value = some (Value.finite h.sign (h.magnitude * 2 ^ 125)) := by
  rw [Half.value, Half.category, if_neg finite]
  split_ifs with expZero manZero
  · simp [Half.magnitude, expZero, manZero]
  · rfl
  · rfl

theorem Half.value_of_number {h : Half} (number : h.low ≤ 0x7C00) :
    h.value = some (Value.signed h.sign (binary16.size h.low)) := by
  rcases Nat.lt_or_eq_of_le number with finite | infinite
  · rw [Half.value_of_finite (Half.finite_iff.2 finite), h.magnitude_eq, binary16.size_of_finite finite,
      Value.signed_coe]
  · rw [Half.value, Half.category_eq_infinity_iff.2 infinite, infinite]
    rfl

theorem Half.value_eq_some_iff {h : Half} {v : Value} :
    h.value = some v ↔ h.low ≤ 0x7C00 ∧ Value.signed h.sign (binary16.size h.low) = v := by
  refine ⟨fun value => ?_, fun ⟨number, value⟩ => by rw [Half.value_of_number number, value]⟩
  by_cases nan : h.category = .nan
  · rw [Half.value, nan] at value
    cases value
  · have number := Half.category_ne_nan_iff.1 nan
    exact ⟨number, Option.some.inj ((Half.value_of_number number).symm.trans value)⟩

theorem Single.finite_iff {x : Single} : x.exp ≠ 0xFF ↔ x.low < 0x7F800000 := by
  have bound := x.low_lt
  simp only [ne_eq, ← BitVec.toNat_inj, x.exp_toNat, BitVec.reduceToNat]
  omega

theorem Single.infinite_iff {x : Single} : x.exp = 0xFF ∧ x.man = 0 ↔ x.low = 0x7F800000 := by
  have bound := x.low_lt
  simp only [← BitVec.toNat_inj, x.exp_toNat, x.man_toNat, BitVec.reduceToNat]
  omega

theorem Single.nan_iff {x : Single} : x.exp = 0xFF ∧ x.man ≠ 0 ↔ 0x7F800000 < x.low := by
  have bound := x.low_lt
  simp only [ne_eq, ← BitVec.toNat_inj, x.exp_toNat, x.man_toNat, BitVec.reduceToNat]
  omega

theorem Single.category_eq_nan_iff {x : Single} : x.category = .nan ↔ 0x7F800000 < x.low := by
  rw [← Single.nan_iff, Single.category]
  split_ifs <;> simp_all

theorem Single.category_eq_infinity_iff {x : Single} : x.category = .infinity ↔ x.low = 0x7F800000 := by
  rw [← Single.infinite_iff, Single.category]
  split_ifs <;> simp_all

theorem Single.category_eq_normal_iff {x : Single} : x.category = .normal ↔ x.exp ≠ 0xFF ∧ x.exp ≠ 0 := by
  rw [Single.category]
  split_ifs <;> simp_all

theorem Single.magnitude_eq (x : Single) : x.magnitude = binary32.magnitude x.low := by
  simp only [Single.magnitude, ← BitVec.toNat_inj, x.exp_toNat, x.man_toNat, BitVec.reduceToNat]
  exact (Nat.mul_one _).symm

theorem Single.value_of_finite {x : Single} (finite : x.exp ≠ 0xFF) :
    x.value = some (Value.finite x.sign x.magnitude) := by
  rw [Single.value, Single.category, if_neg finite]
  split_ifs with expZero manZero
  · simp [Single.magnitude, expZero, manZero]
  · rfl
  · rfl

theorem Single.value_of_number {x : Single} (number : x.low ≤ 0x7F800000) :
    x.value = some (Value.signed x.sign (binary32.size x.low)) := by
  rcases Nat.lt_or_eq_of_le number with finite | infinite
  · rw [Single.value_of_finite (Single.finite_iff.2 finite), x.magnitude_eq, binary32.size_of_finite finite,
      Value.signed_coe]
  · rw [Single.value, Single.category_eq_infinity_iff.2 infinite, infinite]
    rfl

theorem Single.value_eq_some_iff {x : Single} {v : Value} :
    x.value = some v ↔ x.low ≤ 0x7F800000 ∧ Value.signed x.sign (binary32.size x.low) = v := by
  refine ⟨fun value => ?_, fun ⟨number, value⟩ => by rw [Single.value_of_number number, value]⟩
  by_cases nan : 0x7F800000 < x.low
  · rw [Single.value, Single.category_eq_nan_iff.2 nan] at value
    cases value
  · have number := Nat.not_lt.1 nan
    exact ⟨number, Option.some.inj ((Single.value_of_number number).symm.trans value)⟩

end Sys2Proof

/-! ## What the scalar operations answer -/

namespace Sys2Proof.Machine

theorem exec_h2s (h : Half) (s : State) : exec (.h2s h) s =
    .next { s with responses := ⟨s.requester, 0, h2s s.params.h2sNan h⟩ :: s.responses } := rfl

theorem exec_s2h (x : Single) (s : State) : exec (.s2h x) s =
    .next { s with responses := ⟨s.requester, 0, (s2h s.params.s2hNan x).setWidth 32⟩ :: s.responses } := rfl

end Sys2Proof.Machine

/-! ## h2s, branch by branch -/

namespace Sys2Proof.Machine

/-- The branches of 40_scalar_conversion.md R86: NaN, infinity, zero, subnormal, normal. -/
theorem half_branches (h : Half) : (h.exp = 0x1F ∧ h.man ≠ 0) ∨ (h.exp = 0x1F ∧ h.man = 0) ∨
    (h.exp = 0 ∧ h.man = 0) ∨ (h.exp = 0 ∧ h.man ≠ 0) ∨ (h.exp ≠ 0 ∧ h.exp ≠ 0x1F) := by
  tauto

theorem nonzeroPayload_ne_zero {w : Nat} {quiet : BitVec w} (quietSet : quiet ≠ 0) (drawn : BitVec w) :
    nonzeroPayload quiet drawn ≠ 0 := by
  rw [nonzeroPayload]
  split_ifs with noPayload
  · exact quietSet
  · exact noPayload

/-- Every NaN map keeps the sign, sets the exponent to all ones and gives a payload (40_scalar_conversion.md R84). -/
theorem h2sNan_eq_pack (map : NanMap) (h : Half) :
    ∃ payload ≠ 0, h2sNan map h = Single.pack h.sign 0xFF payload := by
  cases map with
  | ruleDefault =>
    refine ⟨_, fun noPayload => ?_, rfl⟩
    have quiet := congrArg (·.getLsbD 22) noPayload
    simp at quiet
  | free => exact ⟨_, nonzeroPayload_ne_zero (by decide) _, rfl⟩

variable {h : Half} (map : NanMap)

theorem h2s_of_nan (exp : h.exp = 0x1F) (man : h.man ≠ 0) : h2s map h = h2sNan map h := by
  have manNat : h.man.toNat ≠ 0 := BitVec.toNat_ne.1 man
  rw [h2s, if_pos ⟨by rw [exp]; rfl, manNat⟩]

theorem h2s_of_infinite (exp : h.exp = 0x1F) (man : h.man = 0) : h2s map h = Single.pack h.sign 0xFF 0 := by
  simp [h2s, exp, man]

theorem h2s_of_zero (exp : h.exp = 0) (man : h.man = 0) : h2s map h = Single.pack h.sign 0 0 := by
  simp [h2s, exp, man]

theorem h2s_of_subnormal (exp : h.exp = 0) (man : h.man ≠ 0) : h2s map h =
    Single.pack h.sign (BitVec.ofNat 8 (h.man.toNat.log2 + 103))
      (BitVec.ofNat 23 (h.man.toNat * 2 ^ (23 - h.man.toNat.log2))) := by
  have manNat : h.man.toNat ≠ 0 := BitVec.toNat_ne.1 man
  simp [h2s, exp, manNat]

theorem h2s_of_normal (notZero : h.exp ≠ 0) (notOnes : h.exp ≠ 0x1F) : h2s map h =
    Single.pack h.sign (BitVec.ofNat 8 (h.exp.toNat + 112)) (BitVec.ofNat 23 (h.man.toNat * 2 ^ 13)) := by
  have zero : h.exp.toNat ≠ 0 := BitVec.toNat_ne.1 notZero
  have ones : h.exp.toNat ≠ 0x1F := BitVec.toNat_ne.1 notOnes
  simp [h2s, zero, ones]

theorem sign_h2s (h : Half) : (h2s map h).sign = h.sign := by
  obtain ⟨exp, man⟩ | ⟨exp, man⟩ | ⟨exp, man⟩ | ⟨exp, man⟩ | ⟨notZero, notOnes⟩ := half_branches h
  · obtain ⟨payload, -, nan⟩ := h2sNan_eq_pack map h
    rw [h2s_of_nan map exp man, nan, Single.sign_pack]
  · rw [h2s_of_infinite map exp man, Single.sign_pack]
  · rw [h2s_of_zero map exp man, Single.sign_pack]
  · rw [h2s_of_subnormal map exp man, Single.sign_pack]
  · rw [h2s_of_normal map notZero notOnes, Single.sign_pack]

end Sys2Proof.Machine

/-! ## H2S widens exactly -/

namespace Sys2Proof.Machine

/-- A mantissa shifted until its most significant bit is that of 24 bits (40_scalar_conversion.md R86). -/
theorem subnormal_normalised {m : Nat} (nonzero : m ≠ 0) (man : m < 2 ^ 10) :
    m.log2 < 10 ∧ 2 ^ 23 ≤ m * 2 ^ (23 - m.log2) ∧ m * 2 ^ (23 - m.log2) < 2 ^ 24 := by
  have small : m.log2 < 10 := (Nat.log2_lt nonzero).2 man
  have shift := Nat.two_pow_pos (23 - m.log2)
  refine ⟨small, ?_, ?_⟩
  · calc 2 ^ 23 = 2 ^ m.log2 * 2 ^ (23 - m.log2) := by rw [← Nat.pow_add]; congr 1; omega
      _ ≤ m * 2 ^ (23 - m.log2) := Nat.mul_le_mul_right _ (Nat.log2_self_le nonzero)
  · calc m * 2 ^ (23 - m.log2) < 2 ^ (m.log2 + 1) * 2 ^ (23 - m.log2) :=
          Nat.mul_lt_mul_of_pos_right Nat.lt_log2_self shift
      _ = 2 ^ 24 := by rw [← Nat.pow_add]; congr 1; omega

variable {h : Half} (map : NanMap)

theorem low_h2s_of_subnormal (exp : h.exp = 0) (man : h.man ≠ 0) : (h2s map h).low =
    (h.man.toNat.log2 + 103) * 2 ^ 23 + (h.man.toNat * 2 ^ (23 - h.man.toNat.log2) - 2 ^ 23) := by
  have manNat : h.man.toNat ≠ 0 := BitVec.toNat_ne.1 man
  obtain ⟨small, atLeast, below⟩ := subnormal_normalised manNat h.man.isLt
  have hiddenBit : h.man.toNat * 2 ^ (23 - h.man.toNat.log2) % 2 ^ 23 =
      h.man.toNat * 2 ^ (23 - h.man.toNat.log2) - 2 ^ 23 := by omega
  rw [h2s_of_subnormal map exp man, Single.low_pack, BitVec.toNat_ofNat, BitVec.toNat_ofNat, hiddenBit,
    Nat.mod_eq_of_lt (by omega)]

theorem low_h2s_of_normal (notZero : h.exp ≠ 0) (notOnes : h.exp ≠ 0x1F) :
    (h2s map h).low = (h.exp.toNat + 112) * 2 ^ 23 + h.man.toNat * 2 ^ 13 := by
  have exp := h.exp.isLt
  have man := h.man.isLt
  rw [h2s_of_normal map notZero notOnes, Single.low_pack, BitVec.toNat_ofNat, BitVec.toNat_ofNat,
    Nat.mod_eq_of_lt (by omega), Nat.mod_eq_of_lt (by omega)]

theorem magnitude_h2s_of_subnormal (exp : h.exp = 0) (man : h.man ≠ 0) :
    binary32.magnitude (h2s map h).low = binary16.magnitude h.low := by
  have manNat : h.man.toNat ≠ 0 := BitVec.toNat_ne.1 man
  have low : h.low = h.man.toNat := by rw [h.low_eq, exp]; simp
  obtain ⟨small, atLeast, below⟩ := subnormal_normalised manNat h.man.isLt
  rw [low_h2s_of_subnormal map exp man, low, binary16_magnitude_subnormal h.man.isLt,
    binary32_magnitude_normal _ (by omega), Nat.add_sub_cancel' atLeast, Nat.mul_assoc, ← Nat.pow_add]
  congr 2
  omega

theorem magnitude_h2s_of_normal (notZero : h.exp ≠ 0) (notOnes : h.exp ≠ 0x1F) :
    binary32.magnitude (h2s map h).low = binary16.magnitude h.low := by
  obtain ⟨e, exp⟩ : ∃ e, h.exp.toNat = e + 1 := Nat.exists_eq_succ_of_ne_zero (BitVec.toNat_ne.1 notZero)
  have man := h.man.isLt
  rw [low_h2s_of_normal map notZero notOnes, h.low_eq, exp, binary16_magnitude_normal e man, Nat.add_right_comm,
    binary32_magnitude_normal _ (by omega)]
  ring

/-- 40_scalar_conversion.md R81, for every finite operand. -/
theorem magnitude_h2s_of_finite (finite : h.exp ≠ 0x1F) :
    (h2s map h).low < 0x7F800000 ∧ binary32.magnitude (h2s map h).low = binary16.magnitude h.low := by
  by_cases exp : h.exp = 0
  · by_cases man : h.man = 0
    · have low : h.low = 0 := by rw [h.low_eq, exp, man]; rfl
      rw [h2s_of_zero map exp man, Single.low_pack, low]
      simp
    · have manNat : h.man.toNat ≠ 0 := BitVec.toNat_ne.1 man
      obtain ⟨small, atLeast, below⟩ := subnormal_normalised manNat h.man.isLt
      refine ⟨?_, magnitude_h2s_of_subnormal map exp man⟩
      rw [low_h2s_of_subnormal map exp man]
      omega
  · refine ⟨?_, magnitude_h2s_of_normal map exp finite⟩
    have largest : h.exp.toNat ≤ 30 := by
      have bound := Half.finite_iff.1 finite
      rw [h.exp_toNat]
      omega
    have man := h.man.isLt
    rw [low_h2s_of_normal map exp finite]
    omega

/-- 40_scalar_conversion.md R81, for every operand that is no NaN. -/
theorem size_h2s (number : h.low ≤ 0x7C00) :
    (h2s map h).low ≤ 0x7F800000 ∧ binary32.size (h2s map h).low = binary16.size h.low := by
  rcases Nat.lt_or_eq_of_le number with finite | infinite
  · obtain ⟨bound, magnitude⟩ := magnitude_h2s_of_finite map (Half.finite_iff.2 finite)
    rw [binary32.size_of_finite bound, binary16.size_of_finite finite, magnitude]
    exact ⟨bound.le, rfl⟩
  · obtain ⟨exp, man⟩ := Half.infinite_iff.2 infinite
    have low : (h2s map h).low = binary32.infinity := by rw [h2s_of_infinite map exp man, Single.low_pack]; rfl
    rw [low, infinite, binary32.size_infinity]
    exact ⟨le_rfl, binary16.size_infinity.symm⟩

theorem value_h2s {v : Value} (value : h.value = some v) : (h2s map h).value = some v := by
  obtain ⟨number, rfl⟩ := Half.value_eq_some_iff.1 value
  obtain ⟨bound, size⟩ := size_h2s map number
  rw [Single.value_of_number bound, size, sign_h2s]

theorem category_h2s_of_subnormal (subnormal : h.category = .subnormal) : (h2s map h).category = .normal := by
  obtain ⟨exp, man⟩ := Half.category_eq_subnormal_iff.1 subnormal
  have finite : (h2s map h).exp ≠ 0xFF :=
    Single.finite_iff.2 (magnitude_h2s_of_finite map (by rw [exp]; decide)).1
  refine Single.category_eq_normal_iff.2 ⟨finite, fun zero => ?_⟩
  have noExponent : 0 = (h2s map h).low / 2 ^ 23 := by rw [← Single.exp_toNat, zero]; rfl
  rw [low_h2s_of_subnormal map exp man] at noExponent
  omega

end Sys2Proof.Machine

/-! ## The statements about H2S -/

namespace Sys2Proof.Machine

/-- A mantissa moved to the top of the wider one loses no bit. -/
theorem shifted_man_toNat (m : BitVec 10) : (m.setWidth 23 <<< 13).toNat = m.toNat <<< 13 := by
  have bound := m.isLt
  rw [BitVec.toNat_shiftLeft, BitVec.toNat_setWidth, Nat.mod_eq_of_lt (show m.toNat < 2 ^ 23 by omega),
    Nat.shiftLeft_eq, Nat.mod_eq_of_lt (by omega)]

theorem setWidth_shifted_man (m : BitVec 10) : (m.setWidth 23 <<< 13).setWidth 32 = m.setWidth 32 <<< 13 := by
  refine BitVec.eq_of_toNat_eq ?_
  have bound := m.isLt
  rw [BitVec.toNat_setWidth, shifted_man_toNat, BitVec.toNat_shiftLeft, BitVec.toNat_setWidth,
    Nat.mod_eq_of_lt (show m.toNat < 2 ^ 32 by omega)]

/-- The model's product is the rule's shift. -/
theorem ofNat_man_mul (m : BitVec 10) : BitVec.ofNat 23 (m.toNat * 2 ^ 13) = m.setWidth 23 <<< 13 := by
  refine BitVec.eq_of_toNat_eq ?_
  have bound := m.isLt
  rw [shifted_man_toNat, BitVec.toNat_ofNat, Nat.mod_eq_of_lt (by omega), Nat.shiftLeft_eq]

/-- The model's mantissa field is the rule's mask. -/
theorem setWidth_masked_man (m : BitVec 10) (k : Nat) :
    (BitVec.ofNat 23 (m.toNat * 2 ^ k)).setWidth 32 = (m.setWidth 32 <<< k) &&& 0x007FFFFF := by
  have mask (n : Nat) : n &&& 0x007FFFFF = n % 2 ^ 23 := Nat.and_two_pow_sub_one_eq_mod n 23
  have bound := m.isLt
  refine BitVec.eq_of_toNat_eq ?_
  simp only [BitVec.toNat_setWidth, BitVec.toNat_ofNat, BitVec.toNat_and, BitVec.toNat_shiftLeft, Nat.shiftLeft_eq,
    BitVec.reduceToNat]
  rw [Nat.mod_eq_of_lt (show m.toNat < 2 ^ 32 by omega), mask]
  omega

/-- The operand's most significant mantissa bit, as 40_scalar_conversion.md R86 finds it. -/
theorem log2_eq_of_mostSignificant {m : BitVec 10} {p : Nat} (set : m.getLsbD p = true)
    (above : ∀ q, p < q → m.getLsbD q = false) : m.toNat ≠ 0 ∧ m.toNat.log2 = p := by
  rw [← BitVec.testBit_toNat] at set
  have atLeast : 2 ^ p ≤ m.toNat := Nat.ge_two_pow_of_testBit set
  have below : m.toNat < 2 ^ (p + 1) :=
    Nat.lt_pow_two_of_testBit _ fun q later => by rw [BitVec.testBit_toNat]; exact above q later
  have nonzero : m.toNat ≠ 0 := (Nat.two_pow_pos p |>.trans_le atLeast).ne'
  exact ⟨nonzero, (Nat.log2_eq_iff nonzero).2 ⟨atLeast, below⟩⟩

theorem setWidth_exponent {e : Nat} (fits : e < 2 ^ 8) : (BitVec.ofNat 8 e).setWidth 32 = BitVec.ofNat 32 e := by
  refine BitVec.eq_of_toNat_eq ?_
  rw [BitVec.toNat_setWidth, BitVec.toNat_ofNat, BitVec.toNat_ofNat]
  omega

/-- Settles O13: the request decodes from its own words, and the packed fields of each branch are the rule's shifts. -/
theorem h2sResult : Obligations.H2sResult := by
  intro w1 s h
  refine ⟨rfl, _, exec_h2s h s, fun ⟨exp, man⟩ => h2s_of_nan _ exp man, ?_, ?_, ?_, ?_⟩
  · rintro ⟨exp, man⟩
    rw [h2s_of_infinite _ exp man, Single.pack_eq_or, BitVec.or_assoc]
    congr 1
  · rintro ⟨exp, man⟩
    rw [h2s_of_zero _ exp man, Single.pack_eq_or]
    simp
  · rintro p ⟨exp, set, above⟩
    obtain ⟨nonzero, rfl⟩ := log2_eq_of_mostSignificant set above
    obtain ⟨small, -, -⟩ := subnormal_normalised nonzero h.man.isLt
    rw [h2s_of_subnormal _ exp (BitVec.toNat_ne.2 nonzero), Single.pack_eq_or, setWidth_exponent (by omega),
      setWidth_masked_man]
  · rintro ⟨atLeast, atMost⟩
    have notZero : h.exp ≠ 0 := fun zero => by simp [zero] at atLeast
    have notOnes : h.exp ≠ 0x1F := fun ones => by simp [ones] at atMost
    rw [h2s_of_normal _ notZero notOnes, Single.pack_eq_or, setWidth_exponent (by omega), ofNat_man_mul,
      setWidth_shifted_man]

/-- Settles O14: `h2s` keeps the sign and, branch by branch, the magnitude; a subnormal gets an exponent from 103 on. -/
theorem h2sWidensExactly : Obligations.H2sWidensExactly :=
  fun h _ s value => ⟨_, exec_h2s h s, value_h2s _ value, sign_h2s _ h, category_h2s_of_subnormal _⟩

/-- Settles O15: every map packs the sign, an exponent of all ones and a payload that is not 0. -/
theorem h2sNanStaysNan : Obligations.H2sNanStaysNan := by
  intro p h exp man
  obtain ⟨payload, nonzero, nan⟩ := h2sNan_eq_pack p.h2sNan h
  have result : h2s p.h2sNan h = Single.pack h.sign 0xFF payload := (h2s_of_nan _ exp man).trans nan
  refine ⟨by rw [result, Single.exp_pack], by rwa [result, Single.man_pack], sign_h2s _ h, ?_, ?_⟩
  · rw [BulkOp.convert, BitVec.ofNat_toNat, BitVec.setWidth_eq]
  · rw [h2s_of_nan _ exp man, h2sNan, Single.pack_eq_or, BitVec.setWidth_or, setWidth_shifted_man,
      ← BitVec.or_assoc, BitVec.or_assoc (BitVec.setWidth 32 h.sign <<< 31)]
    congr 2

end Sys2Proof.Machine

/-! ## s2h, branch by branch -/

namespace Sys2Proof.Machine

/-- Every NaN map keeps the sign, sets the exponent to all ones and gives a payload (40_scalar_conversion.md R85). -/
theorem s2hNan_eq_signed (map : NanMap) (x : Single) :
    ∃ low, 0x7C00 < low ∧ low < 2 ^ 15 ∧ s2hNan map x = Half.signed x.sign low := by
  cases map with
  | ruleDefault =>
    have payload : x.man.toNat / 2 ^ 13 < 2 ^ 15 := by have bound := x.man.isLt; omega
    exact ⟨_, Nat.lt_of_lt_of_le (by decide) Nat.left_le_or, Nat.or_lt_two_pow (by decide) payload, rfl⟩
  | free =>
    have bound := (nonzeroPayload 0x200 (Config.s2hNanPayload x)).isLt
    have nonzero : (nonzeroPayload 0x200 (Config.s2hNanPayload x)).toNat ≠ 0 :=
      BitVec.toNat_ne.1 (nonzeroPayload_ne_zero (by decide) _)
    exact ⟨_, by omega, by omega, rfl⟩

variable {x : Single} (map : NanMap)

theorem s2h_of_nan (exp : x.exp = 0xFF) (man : x.man ≠ 0) : s2h map x = s2hNan map x := by
  have manNat : x.man.toNat ≠ 0 := BitVec.toNat_ne.1 man
  rw [s2h, if_pos ⟨by rw [exp]; rfl, manNat⟩]

theorem s2h_of_large (number : x.low ≤ 0x7F800000) (large : 143 ≤ x.exp.toNat) :
    s2h map x = Half.signed x.sign 0x7C00 := by
  have notNan : ¬ (x.exp.toNat = 0xFF ∧ x.man.toNat ≠ 0) := by rw [x.exp_toNat, x.man_toNat]; omega
  rw [s2h, if_neg notNan, if_pos large, ite_self]

theorem s2h_of_middle (above : 113 ≤ x.exp.toNat) (below : x.exp.toNat ≤ 142) :
    s2h map x = Half.signed x.sign (roundShift ((x.exp.toNat - 112) * 2 ^ 23 + x.man.toNat) 13) := by
  rw [s2h, if_neg (by omega), if_neg (by omega), if_neg (by omega), if_pos above]

theorem s2h_of_small (above : 1 ≤ x.exp.toNat) (below : x.exp.toNat ≤ 112) :
    s2h map x = Half.signed x.sign (roundShift (2 ^ 23 + x.man.toNat) (126 - x.exp.toNat)) := by
  rw [s2h, if_neg (by omega), if_neg (by omega), if_neg (by omega), if_neg (by omega), if_neg (by omega)]

theorem s2h_of_subnormal (exp : x.exp.toNat = 0) : s2h map x = Half.signed x.sign 0 := by
  rw [s2h, if_neg (by omega), if_neg (by omega), if_neg (by omega), if_neg (by omega), if_pos exp]

end Sys2Proof.Machine

/-! ## Rounding to nearest, ties to even -/

namespace Sys2Proof.Machine

/-- Twice the magnitude halfway between the binary16 patterns `k` and `k + 1`. -/
def doubledMidpoint (k : Nat) : Nat := binary16.magnitude k + binary16.magnitude (k + 1)

theorem doubledMidpoint_strictMono : StrictMono doubledMidpoint := fun _ _ less =>
  Nat.add_lt_add (binary16.magnitude_strictMono less) (binary16.magnitude_strictMono (Nat.succ_lt_succ less))

/-- The magnitude `X` rounds to the binary16 pattern `r` (40_scalar_conversion.md R82, R83): `r` is above a pattern
where `X` is above the midpoint that follows the pattern, or is that midpoint and the pattern is odd. -/
structure RoundsTo (X r : Nat) : Prop where
  bounded : r ≤ 0x7C00
  above_iff : ∀ k < 0x7C00, k < r ↔ doubledMidpoint k < 2 * X ∨ (doubledMidpoint k = 2 * X ∧ k % 2 = 1)

/-- Rounding up or down from the pattern `q` that `X` reaches, by the midpoint that follows it. -/
theorem RoundsTo.of_reached {X q r : Nat} (bounded : q < 0x7C00) (reached : binary16.magnitude q ≤ X)
    (below : X < binary16.magnitude (q + 1)) (either : r = q ∨ r = q + 1)
    (up : r = q + 1 ↔ doubledMidpoint q < 2 * X ∨ (doubledMidpoint q = 2 * X ∧ q % 2 = 1)) : RoundsTo X r := by
  refine ⟨by omega, fun k _ => ?_⟩
  rcases lt_trichotomy k q with less | rfl | greater
  · have lower : binary16.magnitude k < binary16.magnitude q := binary16.magnitude_strictMono less
    have upper : binary16.magnitude (k + 1) ≤ binary16.magnitude q := binary16.magnitude_strictMono.monotone less
    have under : doubledMidpoint k < 2 * X := by rw [doubledMidpoint]; omega
    exact ⟨fun _ => .inl under, fun _ => by omega⟩
  · rw [← up]
    omega
  · have lower : binary16.magnitude (q + 1) ≤ binary16.magnitude k := binary16.magnitude_strictMono.monotone greater
    have upper : binary16.magnitude k < binary16.magnitude (k + 1) := binary16.magnitude_strictMono k.lt_succ_self
    have beyond : 2 * X < doubledMidpoint k := by rw [doubledMidpoint]; omega
    omega

theorem roundShift_eq_or (v k : Nat) : roundShift v k = v / 2 ^ k ∨ roundShift v k = v / 2 ^ k + 1 := by
  rw [roundShift]
  split_ifs
  · exact .inr rfl
  · exact .inl rfl

theorem roundShift_eq_succ_iff (v k : Nat) : roundShift v k = v / 2 ^ k + 1 ↔
    2 ^ (k - 1) < v % 2 ^ k ∨ (v % 2 ^ k = 2 ^ (k - 1) ∧ v / 2 ^ k % 2 = 1) := by
  rw [roundShift]
  split_ifs with up <;> simp [up]

/-- `roundShift` rounds where the patterns around the operand lie `2 ^ k` units apart. -/
theorem RoundsTo.roundShift {X v k u : Nat} (pos : 1 ≤ k) (unit : 0 < u) (bounded : v / 2 ^ k < 0x7C00)
    (operand : X = binary16.magnitude (v / 2 ^ k) + v % 2 ^ k * u)
    (spacing : binary16.magnitude (v / 2 ^ k + 1) = binary16.magnitude (v / 2 ^ k) + 2 ^ k * u) :
    RoundsTo X (roundShift v k) := by
  subst operand
  have rest : v % 2 ^ k < 2 ^ k := Nat.mod_lt _ (Nat.two_pow_pos k)
  have half : 2 ^ k = 2 * 2 ^ (k - 1) := by rw [← Nat.pow_succ', Nat.succ_eq_add_one, Nat.sub_add_cancel pos]
  refine .of_reached bounded (Nat.le_add_right _ _) ?_ (roundShift_eq_or v k) ?_
  · rw [spacing]
    exact Nat.add_lt_add_left (Nat.mul_lt_mul_of_pos_right rest unit) _
  · have midpoint : doubledMidpoint (v / 2 ^ k) = 2 * (binary16.magnitude (v / 2 ^ k) + 2 ^ (k - 1) * u) := by
      rw [doubledMidpoint, spacing, half]; ring
    rw [roundShift_eq_succ_iff, midpoint, Nat.mul_lt_mul_left (by decide), Nat.add_lt_add_iff_left,
      Nat.mul_lt_mul_right unit, Nat.mul_right_inj (by decide), Nat.add_right_inj, Nat.mul_left_inj unit.ne',
      eq_comm (a := 2 ^ (k - 1))]

end Sys2Proof.Machine

/-! ## What follows from rounding -/

namespace Sys2Proof.Machine

theorem RoundsTo.of_overflow {X : Nat} (overflow : doubledMidpoint 0x7BFF ≤ 2 * X) : RoundsTo X 0x7C00 := by
  refine ⟨le_rfl, fun k finite => iff_of_true finite ?_⟩
  rcases Nat.lt_or_eq_of_le (Nat.le_of_lt_succ finite) with less | rfl
  · exact .inl ((doubledMidpoint_strictMono less).trans_le overflow)
  · exact (Nat.lt_or_eq_of_le overflow).imp_right fun tie => ⟨tie, rfl⟩

/-- A binary16 magnitude rounds to itself. -/
theorem RoundsTo.of_exact {n : Nat} (finite : n < 0x7C00) : RoundsTo (binary16.magnitude n) n := by
  have next : binary16.magnitude n < binary16.magnitude (n + 1) := binary16.magnitude_strictMono n.lt_succ_self
  refine .of_reached finite le_rfl next (.inl rfl) (iff_of_false (by omega) ?_)
  rw [doubledMidpoint]
  omega

theorem RoundsTo.mono {X Y r q : Nat} (rounds : RoundsTo X r) (rounds' : RoundsTo Y q) (le : X ≤ Y) : r ≤ q := by
  by_contra less
  have finite : q < 0x7C00 := (Nat.lt_of_not_le less).trans_le rounds.bounded
  have above := (rounds.above_iff q finite).1 (Nat.lt_of_not_le less)
  have notAbove := mt (rounds'.above_iff q finite).2 (Nat.lt_irrefl q)
  omega

theorem RoundsTo.unique {X r q : Nat} (rounds : RoundsTo X r) (rounds' : RoundsTo X q) : r = q :=
  Nat.le_antisymm (rounds.mono rounds' le_rfl) (rounds'.mono rounds le_rfl)

theorem RoundsTo.even_of_tie {X r k : Nat} (rounds : RoundsTo X r) (finite : k < 0x7C00)
    (tie : 2 * X = doubledMidpoint k) : r % 2 = 0 := by
  have bounded := rounds.bounded
  have here := rounds.above_iff k finite
  have next : ¬ k + 1 < r := fun above => by
    have later := (rounds.above_iff (k + 1) (by omega)).1 above
    have greater := doubledMidpoint_strictMono k.lt_succ_self
    rw [Nat.succ_eq_add_one] at greater
    omega
  have previous : 0 < k → k - 1 < r := fun pos => by
    have less := doubledMidpoint_strictMono (Nat.sub_one_lt_of_lt pos)
    exact (rounds.above_iff (k - 1) (by omega)).2 (.inl (by omega))
  omega

/-- The binary32 pattern of a midpoint decides on which side of it the rounding goes. -/
theorem RoundsTo.lt_iff_low {n r k midpoint : Nat} (rounds : RoundsTo (binary32.magnitude n) r) (finite : k < 0x7C00)
    (isMidpoint : doubledMidpoint k = 2 * binary32.magnitude midpoint) :
    k < r ↔ midpoint < n ∨ (midpoint = n ∧ k % 2 = 1) := by
  rw [rounds.above_iff k finite, isMidpoint, Nat.mul_lt_mul_left (by decide), Nat.mul_right_inj (by decide),
    binary32.magnitude_strictMono.lt_iff_lt, binary32.magnitude_strictMono.injective.eq_iff]

/-- No finite binary16 magnitude is nearer than the one rounded to, and another is as near only where that one is even
(40_scalar_conversion.md R82). -/
theorem RoundsTo.nearest {X r c : Nat} (rounds : RoundsTo X r) (finite : r < 0x7C00) (candidate : c < 0x7C00) :
    let near := ((X : Int) - binary16.magnitude r).natAbs
    let other := ((X : Int) - binary16.magnitude c).natAbs
    near ≤ other ∧ (near = other → c ≠ r → r % 2 = 0) := by
  rcases lt_trichotomy c r with less | rfl | greater
  · obtain ⟨q, rfl⟩ : ∃ q, r = q + 1 := Nat.exists_eq_add_one_of_ne_zero (by omega)
    have above := (rounds.above_iff q (by omega)).1 (Nat.lt_succ_self q)
    have ordered := binary16.magnitude_strictMono less
    have closer := binary16.magnitude_strictMono.monotone (Nat.le_of_lt_succ less)
    rw [doubledMidpoint] at above
    omega
  · exact ⟨le_rfl, fun _ other => absurd rfl other⟩
  · have notAbove := mt (rounds.above_iff r finite).2 (Nat.lt_irrefl r)
    have ordered := binary16.magnitude_strictMono greater
    have closer : binary16.magnitude (r + 1) ≤ binary16.magnitude c := binary16.magnitude_strictMono.monotone greater
    rw [doubledMidpoint] at notAbove
    omega

end Sys2Proof.Machine

/-! ## s2h rounds -/

namespace Sys2Proof.Machine

theorem binary16_magnitude_of_le {n : Nat} (small : n ≤ 2 ^ 10) : binary16.magnitude n = n * 2 ^ 125 := by
  rcases Nat.lt_or_eq_of_le small with subnormal | rfl
  · exact binary16_magnitude_subnormal subnormal
  · rfl

variable {x : Single} (map : NanMap)

theorem magnitude_of_normal {e : Nat} (exp : x.exp.toNat = e + 1) :
    binary32.magnitude x.low = (2 ^ 23 + x.man.toNat) * 2 ^ e := by
  rw [x.low_eq, exp, binary32_magnitude_normal e x.man.isLt]

theorem roundsTo_of_subnormal (exp : x.exp.toNat = 0) : RoundsTo (binary32.magnitude x.low) 0 := by
  have man := x.man.isLt
  have first : doubledMidpoint 0 = 2 ^ 125 := rfl
  have next : binary16.magnitude (0 + 1) = 2 ^ 125 := rfl
  rw [x.low_eq, exp, Nat.zero_mul, Nat.zero_add, binary32_magnitude_subnormal man]
  refine .of_reached (by decide) (by simp) (by omega) (.inl rfl) (iff_of_false (by decide) ?_)
  omega

/-- Below `2^-14` all binary16 patterns lie `2^-24` apart, so the significand itself is rounded. -/
theorem roundsTo_of_small (above : 1 ≤ x.exp.toNat) (below : x.exp.toNat ≤ 112) :
    RoundsTo (binary32.magnitude x.low) (roundShift (2 ^ 23 + x.man.toNat) (126 - x.exp.toNat)) := by
  obtain ⟨e, exp⟩ : ∃ e, x.exp.toNat = e + 1 := Nat.exists_eq_add_one_of_ne_zero (by omega)
  obtain ⟨k, shift⟩ : ∃ k, 126 - x.exp.toNat = k := ⟨_, rfl⟩
  have man := x.man.isLt
  have unit : 2 ^ k * 2 ^ e = 2 ^ 125 := by rw [← Nat.pow_add]; congr 1; omega
  have quotient : (2 ^ 23 + x.man.toNat) / 2 ^ k < 2 ^ 10 := by
    have atLeast : 2 ^ 14 ≤ 2 ^ k := Nat.pow_le_pow_right (by decide) (by omega)
    exact (Nat.div_le_div_left atLeast (by decide)).trans_lt (by omega)
  rw [magnitude_of_normal exp, shift]
  generalize 2 ^ 23 + x.man.toNat = v at *
  refine .roundShift (u := 2 ^ e) (by omega) (Nat.two_pow_pos e) (by omega) ?_ ?_
  · rw [binary16_magnitude_of_le quotient.le, ← unit, ← Nat.mul_assoc, ← Nat.add_mul, Nat.div_add_mod']
  · rw [binary16_magnitude_of_le quotient.le, binary16_magnitude_of_le quotient, Nat.succ_mul, unit]

/-- From `2^-14` on the binary16 patterns lie `2 ^ 13` binary32 patterns apart, so exponent and mantissa are rounded
together. -/
theorem roundsTo_of_middle (above : 113 ≤ x.exp.toNat) (below : x.exp.toNat ≤ 142) :
    RoundsTo (binary32.magnitude x.low) (roundShift ((x.exp.toNat - 112) * 2 ^ 23 + x.man.toNat) 13) := by
  obtain ⟨e, exp⟩ : ∃ e, x.exp.toNat = e + 112 + 1 := ⟨x.exp.toNat - 113, by omega⟩
  have man := x.man.isLt
  have rebiased : x.exp.toNat - 112 = e + 1 := by omega
  have quotient : ((e + 1) * 2 ^ 23 + x.man.toNat) / 2 ^ 13 = (e + 1) * 2 ^ 10 + x.man.toNat / 2 ^ 13 := by omega
  have rest : ((e + 1) * 2 ^ 23 + x.man.toNat) % 2 ^ 13 = x.man.toNat % 2 ^ 13 := by omega
  have top : x.man.toNat / 2 ^ 13 < 2 ^ 10 := by omega
  rw [magnitude_of_normal exp, rebiased]
  refine .roundShift (u := 2 ^ (e + 112)) (by decide) (Nat.two_pow_pos _) (by omega) ?_ ?_
  · have significand : 2 ^ 23 + x.man.toNat = (2 ^ 10 + x.man.toNat / 2 ^ 13) * 2 ^ 13 + x.man.toNat % 2 ^ 13 := by
      omega
    rw [quotient, rest, binary16_magnitude_normal e top, significand, Nat.add_mul, Nat.mul_assoc, Nat.mul_assoc,
      ← Nat.pow_add, ← Nat.pow_add]
    congr 3
    omega
  · have exponent : ((e + 1) * 2 ^ 10 + x.man.toNat / 2 ^ 13) / 2 ^ 10 - 1 = e := by omega
    have gap : 13 + (e + 112) = e + 125 := by omega
    rw [quotient, binary16_magnitude_succ, exponent, ← Nat.pow_add, ← Nat.pow_add, gap]

theorem roundsTo_of_large (large : 143 ≤ x.exp.toNat) : RoundsTo (binary32.magnitude x.low) 0x7C00 := by
  have low : 0x47800000 ≤ x.low := by rw [x.exp_toNat] at large; omega
  refine .of_overflow (le_trans (b := 2 * binary32.magnitude 0x47800000) (by decide) ?_)
  exact Nat.mul_le_mul_left 2 (binary32.magnitude_strictMono.monotone low)

/-- Sign and rounded magnitude make the result; an infinity counts as a number beyond all finite ones. -/
theorem s2h_eq_signed_of_number (number : x.low ≤ 0x7F800000) :
    ∃ r, s2h map x = Half.signed x.sign r ∧ RoundsTo (binary32.magnitude x.low) r := by
  rcases Nat.lt_or_ge x.exp.toNat 143 with notLarge | large
  · rcases Nat.lt_or_ge x.exp.toNat 113 with notMiddle | middle
    · rcases Nat.eq_zero_or_pos x.exp.toNat with subnormal | small
      · exact ⟨_, s2h_of_subnormal map subnormal, roundsTo_of_subnormal subnormal⟩
      · exact ⟨_, s2h_of_small map small (by omega), roundsTo_of_small small (by omega)⟩
    · exact ⟨_, s2h_of_middle map middle (by omega), roundsTo_of_middle middle (by omega)⟩
  · exact ⟨_, s2h_of_large map number large, roundsTo_of_large large⟩

theorem sign_s2h_of_number (number : x.low ≤ 0x7F800000) : (s2h map x).sign = x.sign := by
  obtain ⟨r, result, -⟩ := s2h_eq_signed_of_number map number
  rw [result, Half.sign_signed]

/-- `s2h` rounds to nearest, ties to even, on every operand that is no NaN (40_scalar_conversion.md R82, R83). -/
theorem s2h_rounds (number : x.low ≤ 0x7F800000) : RoundsTo (binary32.magnitude x.low) (s2h map x).low := by
  obtain ⟨r, result, rounds⟩ := s2h_eq_signed_of_number map number
  have bounded := rounds.bounded
  rwa [result, Half.low_signed _ (by omega)]

/-- Only the patterns from 65520 on are narrowed to an infinity (40_scalar_conversion.md R83). -/
theorem low_s2h_eq_infinity_iff (number : x.low ≤ 0x7F800000) :
    (s2h map x).low = 0x7C00 ↔ 0x477FF000 ≤ x.low := by
  have rounds := s2h_rounds map number
  have bounded := rounds.bounded
  have midpoint : doubledMidpoint 0x7BFF = 2 * binary32.magnitude 0x477FF000 := by decide
  have side := rounds.lt_iff_low (by decide) midpoint
  omega

theorem threshold_le_magnitude_iff : 65520 * 2 ^ 149 ≤ x.magnitude ↔ 0x477FF000 ≤ x.low := by
  have threshold : 65520 * 2 ^ 149 = binary32.magnitude 0x477FF000 := by decide
  rw [threshold, x.magnitude_eq, binary32.magnitude_strictMono.le_iff_le]

end Sys2Proof.Machine

/-! ## The statements about S2H -/

namespace Sys2Proof.Machine

/-- Settles O12: both operations are `h2s` and `s2h` of the operand, whatever the state. -/
theorem scalarOperationsAreTotalAndPure : Obligations.ScalarOperationsAreTotalAndPure := by
  refine fun map => ⟨h2s map, s2h map, fun h s maps => ?_, fun x s maps => ?_⟩
  · rw [exec_h2s, maps]
  · rw [exec_s2h, maps, BitVec.setWidth_eq_append (by decide)]
    rfl

theorem s2hNan_ruleDefault_toNat (x : Single) :
    (s2hNan .ruleDefault x).toNat = x.sign.toNat <<< 15 ||| (0x7E00 ||| x.man.toNat >>> 13) := by
  have top : x.man.toNat / 2 ^ 13 < 2 ^ 15 := by have man := x.man.isLt; omega
  rw [s2hNan, Half.signed_toNat _ (Nat.or_lt_two_pow (by decide) top), Nat.shiftRight_eq_div_pow]

theorem s2hNan_ruleDefault (x : Single) : s2hNan .ruleDefault x =
    (x.sign.setWidth 16 <<< 15) ||| 0x7E00 ||| (x.extractLsb' 13 10).setWidth 16 := by
  have payload : (x.extractLsb' 13 10).toNat = x.man.toNat >>> 13 := by
    rw [x.man_toNat, Single.low, BitVec.extractLsb'_toNat, Nat.shiftRight_eq_div_pow, Nat.shiftRight_eq_div_pow]
    omega
  have small := (x.extractLsb' 13 10).isLt
  have sign : (x.sign.setWidth 16 <<< 15).toNat = x.sign.toNat <<< 15 := by
    have bit := x.sign.isLt
    rw [BitVec.toNat_shiftLeft, BitVec.toNat_setWidth, Nat.mod_eq_of_lt (show x.sign.toNat < 2 ^ 16 by omega),
      Nat.shiftLeft_eq, Nat.mod_eq_of_lt (by omega)]
  refine BitVec.eq_of_toNat_eq ?_
  rw [s2hNan_ruleDefault_toNat, BitVec.toNat_or, BitVec.toNat_or, sign, BitVec.toNat_setWidth,
    Nat.mod_eq_of_lt (by omega), payload, Nat.or_assoc]
  rfl

/-- Settles O16: every map gives the sign and, below it, a pattern above that of the infinity. -/
theorem s2hNanStaysNan : Obligations.S2hNanStaysNan := by
  intro p x exp man
  obtain ⟨low, above, fits, nan⟩ := s2hNan_eq_signed p.s2hNan x
  have result : s2h p.s2hNan x = Half.signed x.sign low := (s2h_of_nan _ exp man).trans nan
  have isNan : 0x7C00 < (s2h p.s2hNan x).low := by rwa [result, Half.low_signed _ fits]
  obtain ⟨ones, payload⟩ := Half.nan_iff.2 isNan
  refine ⟨ones, payload, by rw [result, Half.sign_signed], ?_, ?_⟩
  · rw [BulkOp.convert, BitVec.ofNat_toNat, BitVec.setWidth_eq]
  · rw [s2h_of_nan _ exp man, s2hNan_ruleDefault]

/-- Settles O17: `h2s` keeps sign and magnitude, which determine a pattern. So an `x` with the value of `c` is the
result for the pattern that has the sign of `x` and the magnitude of `c`. -/
theorem h2sIsInjective : Obligations.H2sIsInjective := by
  refine fun map => ⟨fun h g numberH numberG same => ?_, fun x => ⟨?_, ?_⟩, fun h => ?_⟩
  · rw [Half.category_ne_nan_iff] at numberH numberG
    have size : binary16.size h.low = binary16.size g.low := by
      rw [← (size_h2s map numberH).2, same, (size_h2s map numberG).2]
    exact Half.eq_of_low_eq (by rw [← sign_h2s map, same, sign_h2s]) (FloatFormat.eq_of_size_eq numberH numberG size)
  · rintro ⟨h, number, rfl⟩
    have value := Half.value_of_number (Half.category_ne_nan_iff.1 number)
    exact ⟨h, _, value, value_h2s map value⟩
  · rintro ⟨c, v, valueC, valueX⟩
    obtain ⟨numberC, rfl⟩ := Half.value_eq_some_iff.1 valueC
    obtain ⟨numberX, same⟩ := Single.value_eq_some_iff.1 valueX
    have low : (Half.signed x.sign c.low).low = c.low := Half.low_signed _ c.low_lt
    have number : (Half.signed x.sign c.low).low ≤ 0x7C00 := by rwa [low]
    obtain ⟨bound, size⟩ := size_h2s map number
    rw [low, ← Value.eq_of_signed_eq same] at size
    have sign : (h2s map (Half.signed x.sign c.low)).sign = x.sign := by rw [sign_h2s, Half.sign_signed]
    exact ⟨_, Half.category_ne_nan_iff.2 number,
      Single.eq_of_low_eq sign (FloatFormat.eq_of_size_eq bound numberX size)⟩
  · rw [Half.category_eq_nan_iff, Single.category_eq_nan_iff]
    refine ⟨fun nan => ?_, fun nan => ?_⟩
    · by_contra number
      exact absurd (size_h2s map (Nat.not_lt.1 number)).1 (Nat.not_le.2 nan)
    · obtain ⟨exp, man⟩ := Half.nan_iff.2 nan
      obtain ⟨payload, nonzero, result⟩ := h2sNan_eq_pack map h
      rw [h2s_of_nan map exp man, result]
      exact Single.nan_iff.1 ⟨Single.exp_pack .., by rwa [Single.man_pack]⟩

/-- Rounding of exponent and mantissa together, in the shifts and masks of 40_scalar_conversion.md R90. -/
theorem roundShift_middle {e m : Nat} (man : m < 2 ^ 23) :
    let t := (e <<< 10) ||| (m >>> 13)
    let rem := m &&& 0x1FFF
    roundShift (e * 2 ^ 23 + m) 13 = if 0x1000 < rem ∨ (rem = 0x1000 ∧ t % 2 = 1) then t + 1 else t := by
  intro t rem
  have top : m >>> 13 < 2 ^ 10 := by rw [Nat.shiftRight_eq_div_pow]; omega
  have quotient : (e * 2 ^ 23 + m) / 2 ^ 13 = t := by
    rw [show t = e <<< 10 + m >>> 13 from (Nat.shiftLeft_add_eq_or_of_lt top e).symm, Nat.shiftLeft_eq,
      Nat.shiftRight_eq_div_pow]
    omega
  have rest : (e * 2 ^ 23 + m) % 2 ^ 13 = rem := by
    rw [show rem = m % 2 ^ 13 from Nat.and_two_pow_sub_one_eq_mod m 13]
    omega
  rw [roundShift, quotient, rest]
  rfl

/-- Rounding of the significand, in the shifts of 40_scalar_conversion.md R90. -/
theorem roundShift_small {m k : Nat} (man : m < 2 ^ 23) :
    let sig := 0x800000 ||| m
    let q := sig >>> k
    let rem := sig - (q <<< k)
    let half := 1 <<< (k - 1)
    roundShift (2 ^ 23 + m) k = if half < rem ∨ (rem = half ∧ q % 2 = 1) then q + 1 else q := by
  intro sig q rem half
  have significand : 2 ^ 23 + m = sig := by simpa using Nat.two_pow_add_eq_or_of_lt man 1
  have quotient : sig / 2 ^ k = q := (Nat.shiftRight_eq_div_pow sig k).symm
  have rest : sig % 2 ^ k = rem := by
    rw [show rem = sig - q * 2 ^ k from congrArg _ (Nat.shiftLeft_eq q k), ← quotient]
    exact (Nat.sub_eq_of_eq_add' (Nat.div_add_mod' sig (2 ^ k)).symm).symm
  rw [significand, roundShift, quotient, rest, ← Nat.one_shiftLeft]

/-- Settles O18: the sign and the rounded number share no bit, and the shifts and masks are divisions and remainders. -/
theorem s2hResult : Obligations.S2hResult := by
  intro x s
  refine ⟨rfl, _, exec_s2h x s, fun ⟨exp, man⟩ => ?_, fun ⟨exp, man⟩ => ?_, fun ⟨above, below⟩ => ?_,
    fun ⟨above, below⟩ => ?_, fun exp => ?_, fun ⟨above, below⟩ => ?_⟩
  · exact s2h_of_nan _ (BitVec.eq_of_toNat_eq exp) fun zero => man (by rw [zero]; rfl)
  · have number : x.low ≤ 0x7F800000 := by rw [x.low_eq, exp, man]; decide
    rw [s2h_of_large _ number (by rw [exp]; decide), Half.signed_toNat _ (by decide)]
  · have number : x.low ≤ 0x7F800000 := by rw [x.exp_toNat] at below; omega
    rw [s2h_of_large _ number above, Half.signed_toNat _ (by decide)]
  · have bounded := (roundsTo_of_middle above below).bounded
    rw [s2h_of_middle _ above below, Half.signed_toNat _ (by omega), roundShift_middle x.man.isLt]
  · rw [s2h_of_subnormal _ exp, Half.signed_toNat _ (by decide), Nat.or_zero]
  · have bounded := (roundsTo_of_small above below).bounded
    rw [s2h_of_small _ above below, Half.signed_toNat _ (by omega), roundShift_small x.man.isLt]

/-- Settles O19: below the threshold the result is finite, and rounding is to the nearest with ties to even; from the
threshold on the result is the infinity. -/
theorem s2hRoundsToNearestEven : Obligations.S2hRoundsToNearestEven := by
  intro x s finite
  have number := (Single.finite_iff.1 finite).le
  have rounds := s2h_rounds s.params.s2hNan number
  have overflow := low_s2h_eq_infinity_iff s.params.s2hNan number
  refine ⟨_, exec_s2h x s, sign_s2h_of_number _ number, fun below => ?_, fun above => ?_⟩
  · have resultFinite : (s2h s.params.s2hNan x).low < 0x7C00 :=
      lt_of_le_of_ne rounds.bounded (mt overflow.1 (mt threshold_le_magnitude_iff.2 (Nat.not_le.2 below)))
    refine ⟨Half.finite_iff.2 resultFinite, fun c candidate => ?_⟩
    obtain ⟨nearest, tie⟩ := rounds.nearest resultFinite (Half.finite_iff.1 candidate)
    rw [Half.magnitude_eq, Half.magnitude_eq, x.magnitude_eq]
    refine ⟨nearest, fun asNear different => ?_⟩
    have even := tie asNear fun same => different ?_
    · rw [Half.toNat_eq]; omega
    · have magnitude := congrArg binary16.magnitude same
      rw [← Half.magnitude_eq, ← Half.magnitude_eq] at magnitude
      exact Nat.eq_of_mul_eq_mul_right (by decide) magnitude
  · exact Half.infinite_iff.2 (overflow.2 (threshold_le_magnitude_iff.1 above))

/-- Settles O20: the threshold is the midpoint after the greatest finite pattern, 0x7BFF. -/
theorem halfInfinityThreshold : Obligations.HalfInfinityThreshold := by
  have threshold : Single.magnitude 0x477FF000 = 65520 * 2 ^ 149 := by decide
  refine ⟨threshold, by decide, fun map => ⟨rfl, rfl, fun x finite => ?_⟩⟩
  have number := (Single.finite_iff.1 finite).le
  have overflow := low_s2h_eq_infinity_iff map number
  rw [threshold, Half.category_eq_infinity_iff, overflow, threshold_le_magnitude_iff]
  refine ⟨Iff.rfl, fun below => ?_⟩
  have largest : (s2h map x).low ≤ 0x7BFF := by
    have bounded := (s2h_rounds map number).bounded
    have notInfinite := mt overflow.1 (mt threshold_le_magnitude_iff.2 (Nat.not_le.2 below))
    omega
  have magnitude := binary16.magnitude_strictMono.monotone largest
  have largestLow : binary16.magnitude 0x7BFF = Half.magnitude 0x7BFF * 2 ^ 125 := by decide
  rw [← Half.magnitude_eq, largestLow] at magnitude
  exact Nat.le_of_mul_le_mul_right magnitude (by decide)

/-- Settles O21: each row of the table lies between two midpoints: those after the patterns 0, 0x3FF, 0x400 and 0x7BFF,
whose binary32 patterns are 0x33000000, 0x387FE000, 0x38801000 and 0x477FF000. -/
theorem s2hRanges : Obligations.S2hRanges := by
  intro map x finite e m low
  have number := (Single.finite_iff.1 finite).le
  have rounds := s2h_rounds map number
  have bounded := rounds.bounded
  have fields : x.low = e * 2 ^ 23 + m := x.low_eq
  have lowBits : low = (s2h map x).low := BitVec.extractLsb'_toNat ..
  have first := rounds.lt_iff_low (k := 0) (midpoint := 0x33000000) (by decide) (by decide)
  have firstNormal := rounds.lt_iff_low (k := 0x3FF) (midpoint := 0x387FE000) (by decide) (by decide)
  have pastFirstNormal := rounds.lt_iff_low (k := 0x400) (midpoint := 0x38801000) (by decide) (by decide)
  have overflow := low_s2h_eq_infinity_iff map number
  have man : m < 2 ^ 23 := x.man.isLt
  rw [lowBits]
  refine ⟨sign_s2h_of_number map number, ?_, ?_, ?_, ?_, ?_⟩ <;> omega

/-- Under the default maps a NaN keeps its payload, and its quiet bit is set. -/
theorem s2h_h2s_of_nan {h : Half} (exp : h.exp = 0x1F) (man : h.man ≠ 0) :
    s2h .ruleDefault (h2s .ruleDefault h) = h ||| 0x0200 := by
  have widened : h2s .ruleDefault h = Single.pack h.sign 0xFF (0x400000 ||| (h.man.setWidth 23 <<< 13)) :=
    h2s_of_nan _ exp man
  have payload : (0x400000 ||| (h.man.setWidth 23 <<< 13)).toNat >>> 13 = 0x200 ||| h.man.toNat := by
    rw [BitVec.toNat_or, Nat.shiftRight_or_distrib, shifted_man_toNat, Nat.shiftLeft_shiftRight]
    rfl
  obtain ⟨wideExp, wideMan, -⟩ := h2sNanStaysNan {} h exp man
  rw [s2h_of_nan _ wideExp wideMan]
  refine BitVec.eq_of_toNat_eq ?_
  have quietBit : 0x7E00 ||| (0x200 ||| h.man.toNat) = 0x7C00 ||| h.man.toNat ||| 0x200 := by
    rw [Nat.or_assoc, Nat.or_comm h.man.toNat, ← Nat.or_assoc, ← Nat.or_assoc]
    rfl
  rw [s2hNan_ruleDefault_toNat, widened, Single.sign_pack, Single.man_pack, payload, quietBit, BitVec.toNat_or,
    Half.toNat_of_ones exp, Nat.or_assoc (_ <<< 15)]
  rfl

theorem low_s2h_h2s (wide narrow : NanMap) {h : Half} (number : h.low ≤ 0x7C00) :
    (s2h narrow (h2s wide h)).low = h.low := by
  rcases Nat.lt_or_eq_of_le number with finite | infinite
  · obtain ⟨bound, magnitude⟩ := magnitude_h2s_of_finite wide (Half.finite_iff.2 finite)
    have rounds := s2h_rounds narrow bound.le
    rw [magnitude] at rounds
    exact rounds.unique (.of_exact finite)
  · obtain ⟨exp, man⟩ := Half.infinite_iff.2 infinite
    have low : (h2s wide h).low = 0x7F800000 := by rw [h2s_of_infinite wide exp man, Single.low_pack]; rfl
    rw [infinite, low_s2h_eq_infinity_iff narrow low.le, low]
    decide

/-- Settles O22: widening keeps the magnitude, and a binary16 magnitude rounds to itself. -/
theorem wideningThenNarrowingGivesBack : Obligations.WideningThenNarrowingGivesBack := by
  refine ⟨fun wide narrow h number => ?_, fun h nan => ?_⟩
  · rw [Half.category_ne_nan_iff] at number
    have sign : (s2h narrow (h2s wide h)).sign = h.sign := by
      rw [sign_s2h_of_number narrow (size_h2s wide number).1, sign_h2s]
    exact Half.eq_of_low_eq sign (low_s2h_h2s wide narrow number)
  · obtain ⟨exp, man⟩ := Half.nan_iff.2 (Half.category_eq_nan_iff.1 nan)
    exact s2h_h2s_of_nan exp man

/-- Settles O23: a midpoint is passed by rounding only where the pattern before it is odd. -/
theorem tiesGoToEven : Obligations.TiesGoToEven := by
  refine fun map => ⟨fun x k finite below tie => ?_, rfl, rfl, rfl, rfl⟩
  have rounds := s2h_rounds map (Single.finite_iff.1 finite).le
  have midpoint : 2 * binary32.magnitude x.low = doubledMidpoint k := by
    rw [← x.magnitude_eq, tie, Nat.add_mul, Half.magnitude_eq, Half.magnitude_eq, Half.low_ofNat (by omega),
      Half.low_ofNat (by omega), doubledMidpoint]
  have even := rounds.even_of_tie below midpoint
  rw [Half.toNat_eq]
  omega

theorem size_s2h_mono (map : NanMap) {x y : Single} (numberX : x.low ≤ 0x7F800000) (numberY : y.low ≤ 0x7F800000)
    (le : binary32.size x.low ≤ binary32.size y.low) :
    binary16.size (s2h map x).low ≤ binary16.size (s2h map y).low := by
  have low : x.low ≤ y.low := (FloatFormat.size_le_size_iff numberX numberY).1 le
  have roundsX := s2h_rounds map numberX
  have roundsY := s2h_rounds map numberY
  have magnitude := binary32.magnitude_strictMono.monotone low
  exact (FloatFormat.size_le_size_iff roundsX.bounded roundsY.bounded).2 (roundsX.mono roundsY magnitude)

theorem size_s2h_eq_zero (map : NanMap) {x : Single} (number : x.low ≤ 0x7F800000) (zero : binary32.size x.low = 0) :
    binary16.size (s2h map x).low = 0 := by
  have low : x.low = 0 := FloatFormat.eq_of_size_eq number (Nat.zero_le _) zero
  rw [s2h_of_subnormal map (by rw [x.exp_toNat, low]; rfl), Half.low_signed _ (by decide)]
  rfl

theorem value_s2h (map : NanMap) {x : Single} (number : x.low ≤ 0x7F800000) :
    (s2h map x).value = some (Value.signed x.sign (binary16.size (s2h map x).low)) := by
  rw [Half.value_of_number (s2h_rounds map number).bounded, sign_s2h_of_number map number]

/-- Settles O24: rounding is monotone and keeps 0, and `h2s` keeps the value. -/
theorem conversionsKeepOrder : Obligations.ConversionsKeepOrder := by
  refine fun map => ⟨fun x y u v valueX valueY le => ?_, fun h g u v valueH valueG less =>
    ⟨u, v, value_h2s map valueH, value_h2s map valueG, less⟩⟩
  obtain ⟨numberX, rfl⟩ := Single.value_eq_some_iff.1 valueX
  obtain ⟨numberY, rfl⟩ := Single.value_eq_some_iff.1 valueY
  exact ⟨_, _, value_s2h map numberX, value_s2h map numberY, Value.signed_le_signed_of
    (size_s2h_mono map numberX numberY) (size_s2h_mono map numberY numberX) (size_s2h_eq_zero map numberX)
    (size_s2h_eq_zero map numberY) le⟩

end Sys2Proof.Machine

/-! ## The start step lets a good bulk request in, or turns it away at the gate -/

namespace Sys2Proof.Machine

/-- The start step of a sound request whose gate passes and which conflicts with nothing in flight launches it
(60_exceptions.md R145, R149). -/
theorem exec_instr_launches {s : State} {t : Transfer} (notFlying : (⟨s.requester, t⟩ : Flight) ∉ s.flights)
    (sound : t.sound s.params) (gate : s.cap = true ∨ (t.op = .h2sMany ∧ s.params.h2sManyGated = false))
    (clear : ∀ f ∈ s.flights, f.transfer.conflicts t = false) : exec t.instr s = .next (s.launched t) := by
  have passes : t.op.gated s.params = false ∨ s.cap = true := by
    simpa only [not_and_or, Bool.not_eq_true, Bool.not_eq_false] using BulkOp.gate_passes gate
  rw [exec_instr_of_notFlying notFlying, bulkStart_of_clear sound passes clear]

/-- `S2H.MANY` is gated always, `H2S.MANY` where the parameter says so (41_bulk_simd_conversion.md R119). -/
theorem BulkOp.gated_eq_true {p : Params} {op : BulkOp} (gate : op = .s2hMany ∨ p.h2sManyGated = true) :
    op.gated p = true := by
  cases op with
  | h2sMany => exact gate.resolve_left (by decide)
  | s2hMany => rfl

/-- Settles O32: the start step passes each of its checks, and what passes them all is in flight. -/
theorem bulkRequestStarts : Obligations.BulkRequestStarts :=
  fun _ _ notFlying sound gate clear => exec_instr_launches notFlying sound gate clear

/-- Settles O31: past the preconditions a gated request is answered without CAP, and an ungated one needs none. -/
theorem capabilityGate : Obligations.CapabilityGate := by
  refine fun s t notFlying sound noCap => ⟨fun gate => ?_, fun ungated clear => ?_⟩
  · rw [exec_instr_of_notFlying notFlying]
    exact bulkStart_of_gateFailed sound (BulkOp.gated_eq_true gate) noCap
  · exact exec_instr_launches notFlying sound (.inr ungated) clear

end Sys2Proof.Machine

/-! ## What the conversion of one element reads and leaves -/

namespace Sys2Proof.Machine

/-- A destination element has the bytes for every result of the element function (41_bulk_simd_conversion.md R112). -/
theorem BulkOp.convert_lt (p : Params) (op : BulkOp) (v : Nat) : op.convert p v < 2 ^ (8 * op.desize) := by
  cases op <;> exact BitVec.isLt _

/-- The prefixes a sound transfer accesses lie in its declared ranges, so they are disjoint (20_memory.md R48, R49). -/
theorem Transfer.srcRead_apart {p : Params} {t : Transfer} (sound : t.sound p) :
    t.srcRead.overlaps t.dstWritten = false := by
  obtain ⟨-, -, apart⟩ := Transfer.precondition_eq_none.1 sound
  have src : t.count * t.op.sesize ≤ t.srcLen * t.op.sesize := Nat.mul_le_mul_right _ (Nat.min_le_left _ _)
  have dst : t.count * t.op.desize ≤ t.dstLen * t.op.desize := Nat.mul_le_mul_right _ (Nat.min_le_right _ _)
  rw [Span.overlaps_eq_false] at apart ⊢
  simp only [Transfer.srcDeclared, Transfer.dstDeclared] at apart
  simp only [Transfer.srcRead, Transfer.dstWritten]
  omega

theorem Span.contains_iff {r : Span} {a : Nat} : r.contains a = true ↔ r.base ≤ a ∧ a < r.base + r.size := by
  simp only [Span.contains, Bool.and_eq_true, decide_eq_true_eq]

/-- The result for element `i < n` depends on the source elements below `n` alone (41_bulk_simd_conversion.md R113). -/
theorem Transfer.converted_congr (p : Params) {t : Transfer} {m m' : Memory}
    (same : ∀ a, t.srcRead.contains a = true → m'.readByte a = m.readByte a) {i : Nat} (inRange : i < t.count) :
    t.converted p m' i = t.converted p m i := by
  have fits : (i + 1) * t.op.sesize ≤ t.count * t.op.sesize := Nat.mul_le_mul_right _ inRange
  rw [Nat.add_one_mul] at fits
  refine congrArg (t.op.convert p) (Memory.read_congr p.endian fun a low high => same a (Span.contains_iff.2 ?_))
  simp only [Transfer.srcRead, Transfer.srcAddr] at low high ⊢
  omega

/-- What a sound transfer has written so far does not change the results still to come. -/
theorem Transfer.converted_of_changesOnly {p : Params} {t : Transfer} (sound : t.sound p) {m m' : Memory}
    (changes : Memory.ChangesOnly t.dstWritten m m') {i : Nat} (inRange : i < t.count) :
    t.converted p m' i = t.converted p m i :=
  Transfer.converted_congr p (fun _ => changes.readByte_of_disjoint (Transfer.srcRead_apart sound)) inRange

/-- A byte outside the range changed keeps its value. -/
theorem Memory.ChangesOnly.readByte_of_not_contains {r : Span} {m m' : Memory} (changes : Memory.ChangesOnly r m m')
    {a : Nat} (outside : ¬ r.contains a = true) : m'.readByte a = m.readByte a := by
  rw [Span.contains_iff] at outside
  exact changes.outside a (by omega)

/-- The bytes of an element that was written do not depend on the memory it was written to. -/
theorem Memory.readByte_write_inside {m k : Memory} (hm : m.wf) (hk : k.wf) (e : Endian) (v : Nat) {a n x : Nat}
    (low : a ≤ x) (high : x < a + n) : (m.write e a n v).readByte x = (k.write e a n v).readByte x := by
  have bytes (bs : List Byte) (len : bs.length = n) :
      (m.writeBytes a bs).readByte x = (k.writeBytes a bs).readByte x := by
    obtain ⟨j, rfl⟩ := Nat.exists_eq_add_of_le low
    have inside : j < bs.length := by omega
    rw [Memory.readByte_writeBytes_inside hm a bs inside, Memory.readByte_writeBytes_inside hk a bs inside]
  cases e <;> exact bytes _ (by simp)

end Sys2Proof.Machine

/-! ## Full batches and the tail are one conversion, element after element -/

namespace Sys2Proof.Machine

/-- Tail elements join. -/
theorem Transfer.runTail_append (p : Params) (t : Transfer) (m : Memory) (j k : Nat) :
    t.runTail p (t.runTail p m 0 j) j k = t.runTail p m 0 (j + k) := by
  induction k with
  | zero => rfl
  | succ k ih => rw [← Nat.add_assoc, Transfer.runTail, Transfer.runTail, ih, Nat.zero_add]

/-- Stores of the results for the elements from `i` on go on from the elements below `i`. -/
theorem Transfer.storeFrom_runTail {p : Params} {t : Transfer} (sound : t.sound p) (m : Memory) (i : Nat)
    (vs : List Nat) (inRange : i + vs.length ≤ t.count)
    (results : ∀ j (h : j < vs.length), vs[j] = t.converted p m (i + j)) :
    t.storeFrom p (t.runTail p m 0 i) i vs = t.runTail p m 0 (i + vs.length) := by
  induction vs generalizing i with
  | nil => rfl
  | cons v vs ih =>
    rw [List.length_cons] at inRange ⊢
    have first : t.store p (t.runTail p m 0 i) i v = t.runTail p m 0 (i + 1) := by
      have below := t.runTail_changesOnly p m 0 i (by omega)
      have result : v = t.converted p m i := results 0 (Nat.succ_pos _)
      rw [Transfer.runTail, Nat.zero_add, Transfer.converted_of_changesOnly sound below (by omega), result]
    have others : ∀ j (h : j < vs.length), vs[j] = t.converted p m (i + 1 + j) := fun j h => by
      rw [Nat.add_assoc, Nat.add_comm 1 j]
      exact results (j + 1) (Nat.succ_lt_succ h)
    rw [Transfer.storeFrom, first, ih (i + 1) (by omega) others]
    congr 1
    omega

/-- Full batches are as many single elements (41_bulk_simd_conversion.md R115). -/
theorem Transfer.runBatches_eq_runTail {p : Params} {t : Transfer} (sound : t.sound p) (m : Memory) {k : Nat}
    (inRange : k * p.batch ≤ t.count) : t.runBatches p m k = t.runTail p m 0 (k * p.batch) := by
  induction k with
  | zero => rw [Nat.zero_mul]; rfl
  | succ k ih =>
    rw [Nat.add_one_mul] at inRange ⊢
    have before := t.runTail_changesOnly p m 0 (k * p.batch) (by omega)
    rw [Transfer.runBatches, ih (by omega), Transfer.runBatch, Transfer.storeFrom_runTail sound]
    · simp
    · simpa using inRange
    · intro lane h
      rw [List.length_map, List.length_range] at h
      rw [List.getElem_map, List.getElem_range, Transfer.converted_of_changesOnly sound before (by omega)]

/-- A sound transfer is converted as if each of its elements were a tail element (41_bulk_simd_conversion.md R114,
R115). -/
theorem Transfer.run_eq_runTail {p : Params} {t : Transfer} (sound : t.sound p) (m : Memory) :
    t.run p m = t.runTail p m 0 t.count := by
  have all : t.count / p.batch * p.batch + t.count % p.batch = t.count := Nat.div_add_mod' _ _
  have batches : t.count - t.count % p.batch = t.count / p.batch * p.batch := by omega
  rw [Transfer.run, batches, Transfer.runBatches_eq_runTail sound m (Nat.div_mul_le_self _ _),
    Transfer.runTail_append, all]

end Sys2Proof.Machine

/-! ## What the conversion leaves in its destination -/

namespace Sys2Proof.Machine

/-- Destination element `i` holds the result for source element `i` once it is converted. -/
theorem Transfer.read_runTail {p : Params} {t : Transfer} (sound : t.sound p) {m : Memory} (hm : m.wf) {i k : Nat}
    (done : i < k) (inRange : k ≤ t.count) :
    (t.runTail p m 0 k).read p.endian (t.dstAddr i) t.op.desize = t.converted p m i := by
  induction k with
  | zero => exact absurd done (Nat.not_lt_zero i)
  | succ k ih =>
    have before := t.runTail_changesOnly p m 0 k (by omega)
    rw [Transfer.runTail, Nat.zero_add, Transfer.store]
    rcases Nat.lt_succ_iff_lt_or_eq.1 done with earlier | rfl
    · rw [← ih earlier (by omega)]
      have apart : (i + 1) * t.op.desize ≤ k * t.op.desize := Nat.mul_le_mul_right _ earlier
      rw [Nat.add_one_mul] at apart
      refine Memory.read_congr p.endian fun a low high => Memory.readByte_write_outside _ _ _ _ (.inl ?_)
      simp only [Transfer.dstAddr] at high ⊢
      omega
    · refine (Memory.read_write (before.canonical hm) p.endian _ (BulkOp.convert_lt p t.op _)).trans ?_
      exact Transfer.converted_of_changesOnly sound before inRange

/-- The completed conversion, element by element (41_bulk_simd_conversion.md R113). -/
theorem Transfer.read_run {p : Params} {t : Transfer} (sound : t.sound p) {m : Memory} (hm : m.wf) {i : Nat}
    (inRange : i < t.count) : (t.run p m).read p.endian (t.dstAddr i) t.op.desize = t.converted p m i := by
  rw [Transfer.run_eq_runTail sound]
  exact Transfer.read_runTail sound hm inRange (Nat.le_refl _)

/-- The bytes of the elements converted so far depend on the source bytes alone. -/
theorem Transfer.readByte_runTail_congr {p : Params} {t : Transfer} (sound : t.sound p) {m m' : Memory} (hm : m.wf)
    (hm' : m'.wf) (same : ∀ a, t.srcRead.contains a = true → m'.readByte a = m.readByte a) {k : Nat}
    (inRange : k ≤ t.count) {a : Nat} (low : t.dst ≤ a) (high : a < t.dst + k * t.op.desize) :
    (t.runTail p m' 0 k).readByte a = (t.runTail p m 0 k).readByte a := by
  induction k with
  | zero => omega
  | succ k ih =>
    have before := t.runTail_changesOnly p m 0 k (by omega)
    have before' := t.runTail_changesOnly p m' 0 k (by omega)
    have result : t.converted p (t.runTail p m' 0 k) k = t.converted p (t.runTail p m 0 k) k := by
      rw [Transfer.converted_of_changesOnly sound before inRange,
        Transfer.converted_of_changesOnly sound before' inRange, Transfer.converted_congr p same inRange]
    rw [Nat.add_one_mul] at high
    rw [Transfer.runTail, Transfer.runTail, Nat.zero_add, result]
    rcases Nat.lt_or_ge a (t.dstAddr k) with earlier | last
    · rw [Transfer.store, Transfer.store, Memory.readByte_write_outside _ _ _ _ (.inl earlier),
        Memory.readByte_write_outside _ _ _ _ (.inl earlier), ih (by omega) earlier]
    · exact Memory.readByte_write_inside (before'.canonical hm') (before.canonical hm) _ _ last
        (by rwa [Transfer.dstAddr, Nat.add_assoc])

/-- The destination bytes a completed conversion leaves depend on the source bytes alone. -/
theorem Transfer.readByte_run_congr {p : Params} {t : Transfer} (sound : t.sound p) {m m' : Memory} (hm : m.wf)
    (hm' : m'.wf) (same : ∀ a, t.srcRead.contains a = true → m'.readByte a = m.readByte a) {a : Nat}
    (inside : t.dstWritten.contains a = true) : (t.run p m').readByte a = (t.run p m).readByte a := by
  obtain ⟨low, high⟩ := Span.contains_iff.1 inside
  rw [Transfer.run_eq_runTail sound, Transfer.run_eq_runTail sound]
  exact Transfer.readByte_runTail_congr sound hm hm' same (Nat.le_refl _) low high

end Sys2Proof.Machine

/-! ## The completion step of a bulk request -/

namespace Sys2Proof.Machine

/-- A request in flight over admitted memory is completed by its next step (60_exceptions.md R149). -/
theorem exec_instr_completes {s : State} {t : Transfer} (flying : (⟨s.requester, t⟩ : Flight) ∈ s.flights)
    (admitted : s.admitsTransfer t = true) : exec t.instr s = .next (s.completed t) := by
  rw [exec_instr_of_flying flying, bulkComplete_of_admits admitted]

/-- A request in flight over memory that is not admitted is stuck (20_memory.md R47). -/
theorem exec_instr_sticks {s : State} {t : Transfer} (flying : (⟨s.requester, t⟩ : Flight) ∈ s.flights)
    (barred : s.admitsTransfer t = false) : exec t.instr s = .next s := by
  rw [exec_instr_of_flying flying, bulkComplete_of_stuck barred]

/-- The host admits a transfer where it admits both prefixes (20_memory.md R47). -/
theorem State.admitsTransfer_of_admitsSpan {s : State} {t : Transfer} (src : s.admitsSpan t.srcRead = true)
    (dst : s.admitsSpan t.dstWritten = true) : s.admitsTransfer t = true := by
  rw [State.admitsTransfer, src, dst]
  rfl

/-- The completion step of either operation: every destination element below `n` is converted, every other byte is as it
was, and the request is answered (41_bulk_simd_conversion.md R113, R118). -/
theorem exec_instr_converts {s : State} {t : Transfer} (flying : (⟨s.requester, t⟩ : Flight) ∈ s.flights)
    (sound : t.sound s.params) (canonical : s.mem.wf) (srcAdmitted : s.admitsSpan t.srcRead = true)
    (dstAdmitted : s.admitsSpan t.dstWritten = true) :
    ∃ m : Memory,
      exec t.instr s = .next { s with
        mem := m
        flights := s.flights.erase ⟨s.requester, t⟩
        responses := ⟨s.requester, 0, 0⟩ :: s.responses } ∧
      (∀ i, i < t.count → m.read s.params.endian (t.dstAddr i) t.op.desize = t.converted s.params s.mem i) ∧
      ∀ a, a < t.dst ∨ t.dst + t.count * t.op.desize ≤ a → m.readByte a = s.mem.readByte a :=
  ⟨t.run s.params s.mem, exec_instr_completes flying (State.admitsTransfer_of_admitsSpan srcAdmitted dstAdmitted),
    fun _ => Transfer.read_run sound canonical, (t.run_changesOnly s.params s.mem).outside⟩

/-- Settles O34: the element function of `H2S.MANY` is `h2s`, from two bytes to four. -/
theorem h2sManyCompletes : Obligations.H2sManyCompletes :=
  fun _ dst dstLen src srcLen => exec_instr_converts (t := ⟨.h2sMany, dst, dstLen, src, srcLen⟩)

/-- Settles O35: the element function of `S2H.MANY` is `s2h`, from four bytes to two. -/
theorem s2hManyCompletes : Obligations.S2hManyCompletes :=
  fun _ dst dstLen src srcLen => exec_instr_converts (t := ⟨.s2hMany, dst, dstLen, src, srcLen⟩)

/-- A request in flight is completed or stuck (20_memory.md R47, 60_exceptions.md R149). -/
theorem completed_or_stuck {s u : State} {t : Transfer} (flying : (⟨s.requester, t⟩ : Flight) ∈ s.flights)
    (executed : exec t.instr s = .next u) :
    (s.admitsTransfer t = true ∧ u = s.completed t) ∨ (s.admitsTransfer t = false ∧ u = s) := by
  cases admitted : s.admitsTransfer t with
  | true =>
    rw [exec_instr_completes flying admitted] at executed
    cases executed
    exact .inl ⟨rfl, rfl⟩
  | false =>
    rw [exec_instr_sticks flying admitted] at executed
    cases executed
    exact .inr ⟨rfl, rfl⟩

/-- The machine with another `BATCH` (00_scope.md R6). -/
def State.withBatch (s : State) (b : Nat) : State := { s with params := { s.params with batch := b } }

/-- The element-by-element conversion does not use `BATCH` (41_bulk_simd_conversion.md R114). -/
theorem Transfer.runTail_withBatch (s : State) (b : Nat) (t : Transfer) (m : Memory) (first k : Nat) :
    t.runTail (s.withBatch b).params m first k = t.runTail s.params m first k := by
  induction k with
  | zero => rfl
  | succ k ih =>
    rw [Transfer.runTail, ih]
    rfl

/-- Under every `BATCH` the conversion is the one element by element (41_bulk_simd_conversion.md R115). -/
theorem State.completed_withBatch {s : State} {t : Transfer} (sound : t.sound s.params) (b : Nat) :
    (s.withBatch b).completed t = (s.completed t).withBatch b := by
  have same : t.run (s.withBatch b).params s.mem = t.run s.params s.mem := by
    rw [Transfer.run_eq_runTail (p := (s.withBatch b).params) sound, Transfer.run_eq_runTail sound,
      Transfer.runTail_withBatch]
  exact congrArg (fun m => ({ s.completed t with mem := m }).withBatch b) same

/-- Settles O38: whether the request is stuck does not depend on `BATCH`, nor does the completed state. -/
theorem batchIsNotObservable : Obligations.BatchIsNotObservable := by
  intro s u t b flying sound _ executed
  rcases completed_or_stuck flying executed with ⟨admitted, rfl⟩ | ⟨barred, rfl⟩
  · have completes : exec t.instr (s.withBatch b) = .next ((s.withBatch b).completed t) :=
      exec_instr_completes flying admitted
    rwa [State.completed_withBatch sound b] at completes
  · exact exec_instr_sticks (s := u.withBatch b) flying barred

/-- RESULT bits 15 to 0 of `S2H` are the binary16 pattern (40_scalar_conversion.md R90). -/
theorem extractLsb'_setWidth_half (h : Half) : (h.setWidth 32).extractLsb' 0 16 = h := by
  rw [← BitVec.setWidth_eq_extractLsb' (by decide), BitVec.setWidth_setWidth (by decide), BitVec.setWidth_eq]

/-- Settles O39: the completed conversion has in each destination element the scalar function of its source element,
and that is the scalar request's result. -/
theorem bulkEqualsScalar : Obligations.BulkEqualsScalar := by
  intro s u t flying sound canonical executed answered i inRange
  obtain ⟨-, rfl⟩ | ⟨-, rfl⟩ := completed_or_stuck flying executed
  case inr => exact absurd answered (List.cons_ne_self _ _).symm
  have element := Transfer.read_run sound canonical inRange
  obtain ⟨op, dst, dstLen, src, srcLen⟩ := t
  cases op with
  | h2sMany => exact ⟨_, exec_h2s _ s, element⟩
  | s2hMany => exact ⟨_, exec_s2h _ s, element.trans (congrArg BitVec.toNat (extractLsb'_setWidth_half _).symm)⟩

/-- A conversion done again changes nothing: the source is as it was, and the rest is not written
(41_bulk_simd_conversion.md R121). -/
theorem Transfer.run_run {p : Params} {t : Transfer} (sound : t.sound p) {m : Memory} (hm : m.wf) :
    t.run p (t.run p m) = t.run p m := by
  have once := t.run_changesOnly p m
  have twice := t.run_changesOnly p (t.run p m)
  have source : ∀ a, t.srcRead.contains a = true → (t.run p m).readByte a = m.readByte a :=
    fun _ => once.readByte_of_disjoint (Transfer.srcRead_apart sound)
  refine Memory.ext_of_readByte (twice.canonical (once.canonical hm)) (once.canonical hm) fun a => ?_
  by_cases inside : t.dstWritten.contains a = true
  · exact Transfer.readByte_run_congr sound hm (once.canonical hm) source inside
  · exact twice.readByte_of_not_contains inside

/-- Settles O40: a completed request completes again over the memory it left, and a stuck one is stuck again. -/
theorem bulkRequestIsIdempotent : Obligations.BulkRequestIsIdempotent := by
  intro s u t flying sound canonical executed
  rcases completed_or_stuck flying executed with ⟨admitted, rfl⟩ | ⟨barred, rfl⟩
  · exact ⟨_, exec_instr_completes (s := { s.completed t with flights := _ }) (by simp) admitted,
      Transfer.run_run sound canonical, fun _ => rfl⟩
  · have unanswered := (List.cons_ne_self (⟨u.requester, 0, 0⟩ : Response) u.responses).symm
    exact ⟨_, exec_instr_sticks (by simp) barred, rfl, fun answered => absurd answered unanswered⟩

end Sys2Proof.Machine

/-! ## Two requests in flight -/

namespace Sys2Proof.Machine

/-- Conversions that do not conflict can be done in either order: neither changes what the other reads or writes
(41_bulk_simd_conversion.md R122). -/
theorem Transfer.run_comm {p : Params} {t u : Transfer} (soundT : t.sound p) (soundU : u.sound p)
    (clear : t.conflicts u = false) {m : Memory} (hm : m.wf) : u.run p (t.run p m) = t.run p (u.run p m) := by
  obtain ⟨srcT, dstT⟩ := Transfer.buffers_apart_of_conflicts_eq_false clear
  obtain ⟨srcU, dstU⟩ := Transfer.buffers_apart_of_conflicts_eq_false ((Transfer.conflicts_comm u t).trans clear)
  have first := t.run_changesOnly p m
  have second := u.run_changesOnly p (t.run p m)
  have first' := u.run_changesOnly p m
  have second' := t.run_changesOnly p (u.run p m)
  have wfT := first.canonical hm
  have wfU := first'.canonical hm
  refine Memory.ext_of_readByte (second.canonical wfT) (second'.canonical wfU) fun a => ?_
  by_cases inT : t.dstWritten.contains a = true
  · rw [second.readByte_of_disjoint dstT inT,
      Transfer.readByte_run_congr soundT hm wfU (fun _ => first'.readByte_of_disjoint srcT) inT]
  by_cases inU : u.dstWritten.contains a = true
  · rw [second'.readByte_of_disjoint dstU inU,
      Transfer.readByte_run_congr soundU hm wfT (fun _ => first.readByte_of_disjoint srcU) inU]
  · rw [second.readByte_of_not_contains inU, first.readByte_of_not_contains inT,
      second'.readByte_of_not_contains inT, first'.readByte_of_not_contains inU]

/-- Settles O41: each of the two is in flight until it is completed itself, and they conflict in nothing. -/
theorem requestsInFlightCommute : Obligations.RequestsInFlightCommute := by
  intro s f g inv flyingF flyingG ne admitted
  have admittedF := State.admitsTransfer_of_admitsSpan (admitted f (.inl rfl)).1 (admitted f (.inl rfl)).2
  have admittedG := State.admitsTransfer_of_admitsSpan (admitted g (.inr rfl)).1 (admitted g (.inr rfl)).2
  refine ⟨_, _, _, _, exec_instr_completes (s := { s with requester := f.requester }) flyingF admittedF,
    exec_instr_completes (s := { State.completed _ _ with requester := g.requester }) ?_ admittedG,
    exec_instr_completes (s := { s with requester := g.requester }) flyingG admittedG,
    exec_instr_completes (s := { State.completed _ _ with requester := f.requester }) ?_ admittedF,
    Transfer.run_comm (inv.sound f flyingF) (inv.sound g flyingG) (inv.conflicts_eq_false flyingF flyingG ne)
      inv.canonical⟩
  · exact (List.mem_erase_of_ne ne.symm).2 flyingG
  · exact (List.mem_erase_of_ne ne).2 flyingF

end Sys2Proof.Machine

/-! ## A bulk request from its words to its response -/

namespace Sys2Proof.Machine

/-- With no move to make, a request over admitted memory that is the only one in flight is completed. -/
theorem step_completes_onlyFlight {s : State} {f : Flight} (unfaulted : s.recordedFault = none)
    (noInputs : s.inputs = []) (only : s.flights = [f]) (admitted : s.admitsTransfer f.transfer = true) :
    step s = .next (State.completed { s with requester := f.requester } f.transfer) := by
  have noMove : s.nextMove = none := by rw [State.nextMove, noInputs, State.firstMove]
  have oldest : s.oldestAdmitted = some f := by rw [State.oldestAdmitted, only]; exact List.find?_cons_of_pos admitted
  rw [step_of_noMove unfaulted noMove, serveOldest, oldest]
  exact completeFlight_of_admits (by simp [only]) admitted

/-- A request launched alone is completed by the next step, which leaves nothing in flight. -/
theorem step_launched {s : State} {t : Transfer} (unfaulted : s.recordedFault = none) (noInputs : s.inputs = [])
    (noFlights : s.flights = []) (admitted : s.admitsTransfer t = true) :
    step (s.launched t) =
      .next { s with mem := t.run s.params s.mem, responses := ⟨s.requester, 0, 0⟩ :: s.responses } := by
  have only : (s.launched t).flights = [⟨s.requester, t⟩] := by rw [State.launched, noFlights]; rfl
  have erased : (s.launched t).flights.erase ⟨s.requester, t⟩ = s.flights := by rw [only, noFlights]; simp
  rw [step_completes_onlyFlight (s := s.launched t) unfaulted noInputs only admitted, State.completed]
  simp only [erased]
  rfl

/-- Settles O42: the words decode to the request, which starts at once; then it is the only one in flight, and the
second step completes it. -/
theorem bulkRequestRunsInTwoSteps : Obligations.BulkRequestRunsInTwoSteps := by
  intro s agent t unfaulted noFlights input fits sound canonical gate srcAdmitted dstAdmitted
  have starts : step s = .next (State.launched { s with requester := agent, inputs := [] } t) := by
    rw [step_send_encoded unfaulted noFlights input fits]
    exact exec_instr_launches (by simp [noFlights]) sound gate (by simp [noFlights])
  have completes := step_launched (s := { s with requester := agent, inputs := [] }) unfaulted rfl noFlights
    (State.admitsTransfer_of_admitsSpan srcAdmitted dstAdmitted)
  exact ⟨t.run s.params s.mem, (run_of_step 1 starts).trans (run_of_step 0 completes),
    fun _ inRange => Transfer.read_run sound canonical inRange, (t.run_changesOnly s.params s.mem).outside⟩

end Sys2Proof.Machine

/-! ## Reserved headers and recorded faults -/

namespace Sys2Proof

/-- Words that decode as reserved are a header that selects no operation, and the words left over
(30_encoding.md R66, R67). -/
theorem header_of_decode_eq_reserved {p : Params} {words rest : List Word} (decoded : decode p words = .reserved rest) :
    ∃ w0, words = w0 :: rest ∧ Opcode.ofHeader w0 = none := by
  cases words with
  | nil => cases decoded
  | cons w0 ws =>
    cases selected : Opcode.ofHeader w0 with
    | none => rw [decode_of_reserved selected] at decoded; cases decoded; exact ⟨w0, rfl, selected⟩
    | some op =>
      rw [decode, selected] at decoded
      cases op with
      | h2s | s2h => exact absurd decoded (decodeScalar_ne_reserved _ _ _)
      | h2sMany | s2hMany => exact absurd decoded (decodeBulk_ne_reserved _ _ _ _)

end Sys2Proof

namespace Sys2Proof.Machine

theorem serveWords_of_reserved {s : State} {words rest : List Word} (agent : Nat) (later : List Input)
    (decoded : decode s.params words = .reserved rest) :
    serveWords agent words later s = .next (s.fetched agent rest later).respondIllegal := by
  simp [serveWords, decoded]

/-- A recorded fault stops the machine (60_exceptions.md R144, log 8). -/
theorem step_of_recordedFault {s : State} {f : Fault} (recorded : s.recordedFault = some f) : step s = .fault f := by
  rw [step, advance, recorded]

/-- Settles O9: a header that selects no operation decodes as reserved, and its answer holds the recorded fault. -/
theorem reservedHeaderIsAnsweredAndRecorded : Obligations.ReservedHeaderIsAnsweredAndRecorded := by
  intro s agent w0 ws later unfaulted input idle h1 h2 h3 h4
  have decoded : decode s.params (w0 :: ws) = .reserved ws :=
    decode_of_reserved (Opcode.ofHeader_eq_none_iff.2 ⟨h1, h2, h3, h4⟩) s.params ws
  refine ⟨(s.fetched agent ws later).respondIllegal, ?_, rfl, step_of_recordedFault rfl⟩
  rw [step_send_of_idle unfaulted input idle, serveWords_of_reserved agent later decoded]

/-- Every step keeps the recorded fault, but for the answer to a request that decodes as reserved
(60_exceptions.md R142). -/
theorem StepChange.recordedFault {s t : State} (change : StepChange s t) :
    t.recordedFault = s.recordedFault ∨
    ∃ agent words later rest, s.nextMove = some (.send agent words, later) ∧
      decode s.params words = .reserved rest := by
  cases change with
  | waited | passed | drove | wrote | looked | mapped => exact .inl rfl
  | answered _ _ _ _ done => subst done; exact .inl rfl
  | ran _ _ _ _ _ _ _ _ _ change =>
    obtain ⟨-, -, -, -, -, -, recordedFault⟩ := change.keeps
    exact .inl recordedFault
  | illegal agent words later rest input decoded => exact .inr ⟨agent, words, later, rest, input, decoded⟩
  | wasReset => exact .inl (State.resetBlock_recordedFault _)

/-- Settles O10: a step starts with no recorded fault, so one that ends with a recorded fault did not keep it. -/
theorem onlyAReservedHeaderRecordsAFault : Obligations.OnlyAReservedHeaderRecordsAFault := by
  intro s t stepped recorded
  obtain ⟨change, unfaulted⟩ := step_next stepped
  rcases change.recordedFault with kept | ⟨agent, words, later, ws, input, decoded⟩
  · exact absurd (kept.trans unfaulted) recorded
  · obtain ⟨w0, rfl, reserved⟩ := header_of_decode_eq_reserved decoded
    exact ⟨agent, w0, ws, later, input, Opcode.ofHeader_eq_none_iff.1 reserved⟩

end Sys2Proof.Machine

/-! ## The statuses of the responses -/

namespace Sys2Proof.Machine

theorem Status.code_toNat_le (st : Status) : st.code.toNat ≤ 2 := by cases st <;> decide

theorem Status.ofCode_eq_none_iff {w : Word} : Status.ofCode w = none ↔ 3 ≤ w.toNat := by
  unfold Status.ofCode
  split
  case h_4 notOk notUnsupported notIllegal =>
    simp only [imp_false] at notOk notUnsupported notIllegal
    simp only [true_iff]
    omega
  all_goals simp [*]

theorem State.status_of_mem_respond {s : State} {st : Status} {w : Word} {r : Response}
    (returned : r ∈ (s.respond st w).responses) : r ∈ s.responses ∨ ∃ st : Status, r.status = st.code := by
  rcases List.mem_cons.1 returned with rfl | old
  · exact .inr ⟨st, rfl⟩
  · exact .inl old

/-- `exec` returns only responses with a status of 10_state.md R25. -/
theorem ExecChange.responses {s t : State} (change : ExecChange s t) :
    ∀ r ∈ t.responses, r ∈ s.responses ∨ ∃ st : Status, r.status = st.code := by
  intro r returned
  cases change with
  | answered | completed => exact State.status_of_mem_respond returned
  | launched | stuck => exact .inl returned

/-- A step returns only responses with a status of 10_state.md R25. -/
theorem StepChange.responses {s t : State} (change : StepChange s t) :
    ∀ r ∈ t.responses, r ∈ s.responses ∨ ∃ st : Status, r.status = st.code := by
  intro r returned
  cases change with
  | waited | passed | drove | wrote | looked | mapped => exact .inl returned
  | answered f flying _ _ done =>
    subst done
    exact (ExecChange.completed (s := { s with requester := f.requester }) f.transfer flying).responses r returned
  | ran _ _ _ _ _ _ _ _ _ change => exact change.responses r returned
  | illegal agent _ later rest =>
    exact State.status_of_mem_respond (s := s.fetched agent rest later) (st := .illegalRequest) (w := 0) returned
  | wasReset => exact .inl (by simpa using returned)

/-- Settles O52: a response that a step adds carries the code of one of the three statuses. -/
theorem reservedStatusesAreNeverProduced : Obligations.ReservedStatusesAreNeverProduced := by
  refine ⟨fun s t r stepped returned => ?_, fun _ => Status.ofCode_eq_none_iff⟩
  refine ((step_next stepped).1.responses r returned).imp_right ?_
  rintro ⟨st, status⟩
  rw [status]
  exact st.code_toNat_le

end Sys2Proof.Machine

/-! ## A request behind stuck moves -/

namespace Sys2Proof.Machine

/-- A move of a requester that has requests in flight, all stuck, is stuck (20_memory.md R47, R50). -/
theorem State.moveStuck_of_barred {s : State} {j : Input} {f : Flight} (flying : f ∈ s.flights)
    (waits : j.waitsFor = some f.requester)
    (barred : ∀ g ∈ s.flights, g.requester = f.requester → s.admitsTransfer g.transfer = false) :
    s.moveStuck j = true := by
  cases found : s.outstanding f.requester with
  | none => exact absurd rfl (State.outstanding_none found f flying)
  | some g =>
    have its : g.requester = f.requester := by simpa using List.find?_some found
    simp [State.moveStuck, waits, found, barred g (State.outstanding_mem found) its]

/-- The words of a requester with nothing in flight are the next move behind stuck moves of others (log 9). -/
theorem State.nextMove_send_of_stuck {s : State} {before later : List Input} {agent : Nat} {words : List Word}
    (input : s.inputs = before ++ .send agent words :: later) (stuck : ∀ j ∈ before, s.moveStuck j = true)
    (others : ∀ j ∈ before, j.waitsFor ≠ some agent) (idle : s.outstanding agent = none) :
    s.nextMove = some (.send agent words, before ++ later) := by
  rw [State.nextMove, input]
  exact State.firstMove_of_stuck stuck (State.moveStuck_send_of_idle words idle) rfl fun j hj => .inr (others j hj)

/-- Settles O55: the moves before the request are stuck and belong to requesters with a request in flight, so to others;
the request is the next move, and serving it is `exec` of it. -/
theorem stuckRequestHoldsUpNoOther : Obligations.StuckRequestHoldsUpNoOther := by
  intro s before later agent words i rest unfaulted input behind idle decoded
  have waitsForNone : s.outstanding agent = none := State.outstanding_of_idle idle
  have stuck : ∀ j ∈ before, s.moveStuck j = true := fun j hj =>
    have ⟨_, flying, waits, barred⟩ := behind j hj
    State.moveStuck_of_barred flying waits barred
  have others : ∀ j ∈ before, j.waitsFor ≠ some agent := fun j hj =>
    have ⟨f, flying, waits, _⟩ := behind j hj
    fun own => idle f flying (Option.some.inj (waits.symm.trans own))
  rw [step_of_move unfaulted (State.nextMove_send_of_stuck input stuck others waitsForNone),
    serveInput_send_of_idle words _ waitsForNone, serveWords_of_request agent _ decoded, State.fetched]

end Sys2Proof.Machine

/-! ## Where no move can happen, the requests in flight are answered one after the other -/

namespace Sys2Proof.Machine

/-- Erasing another entry does not change what is found. -/
theorem find?_erase_of_ne {α : Type} [BEq α] [LawfulBEq α] {p : α → Bool} {l : List α} {x y : α}
    (found : l.find? p = some x) (ne : x ≠ y) : (l.erase y).find? p = some x := by
  obtain ⟨px, before, after, rfl, unlike⟩ := List.find?_eq_some_iff_append.1 found
  by_cases earlier : y ∈ before
  · rw [List.erase_append_left _ earlier]
    exact List.find?_eq_some_iff_append.2
      ⟨px, before.erase y, after, rfl, fun z hz => unlike z (List.mem_of_mem_erase hz)⟩
  · rw [List.erase_append_right _ earlier, List.erase_cons_tail (by simpa using ne)]
    exact List.find?_eq_some_iff_append.2 ⟨px, before, after.erase y, rfl, unlike⟩

/-- Where every stuck move stays stuck and no move could happen, none can. -/
theorem State.firstMove_eq_none_of_moveStuck {s u : State}
    (still : ∀ i, s.moveStuck i = true → u.moveStuck i = true) {held : List Nat} {moves : List Input}
    (noMove : s.firstMove held moves = none) : u.firstMove held moves = none := by
  induction moves generalizing held with
  | nil => rfl
  | cons i moves ih =>
    unfold State.firstMove at noMove ⊢
    split at noMove
    · rename_i cannot
      have cannotStill : (u.moveStuck i || i.heldBy held) = true := by
        rw [Bool.or_eq_true] at cannot ⊢
        exact cannot.imp_left (still i)
      rw [if_pos cannotStill, ih (Option.map_eq_none_iff.1 noMove), Option.map_none]
    · cases noMove

/-- The machine after it has answered `f` with no move to make (70_reset_and_hazards.md R167). -/
def State.served (s : State) (f : Flight) : State := State.completed { s with requester := f.requester } f.transfer

@[simp] theorem State.served_flights (s : State) (f : Flight) : (s.served f).flights = s.flights.erase f := rfl

@[simp] theorem State.served_responses (s : State) (f : Flight) :
    (s.served f).responses = ⟨f.requester, 0, 0⟩ :: s.responses := rfl

@[simp] theorem State.served_admitsTransfer (s : State) (f : Flight) (t : Transfer) :
    (s.served f).admitsTransfer t = s.admitsTransfer t := rfl

/-- What no request in flight has, none has after one of them is answered. -/
theorem State.any_served {s : State} {p : Flight → Bool} (f : Flight) (noneHas : s.flights.any p = false) :
    (s.served f).flights.any p = false :=
  List.any_eq_false.2 fun g hg => List.any_eq_false.1 noneHas g (List.mem_of_mem_erase hg)

/-- A stuck host access stays stuck: it races with nothing while fewer requests are in flight. -/
theorem State.accessStuck_served {s : State} (f : Flight) {i : Input} (stuck : s.accessStuck i = true) :
    (s.served f).accessStuck i = true := by
  cases i with
  | hostWrite | hostRead =>
    simp only [State.accessStuck, Bool.and_eq_true, Bool.not_eq_true'] at stuck ⊢
    obtain ⟨⟨fits, raceFree⟩, unadmitted⟩ := stuck
    exact ⟨⟨fits, State.any_served f raceFree⟩, unadmitted⟩
  | send | answer | driveCap | mapMemory | resetBlock => cases stuck

/-- Answering a request that is not stuck leaves every stuck move stuck: the request that its agent waits for is
another one. -/
theorem State.moveStuck_served {s : State} {f : Flight} (admitted : s.admitsTransfer f.transfer = true) {i : Input}
    (stuck : s.moveStuck i = true) : (s.served f).moveStuck i = true := by
  unfold State.moveStuck at stuck ⊢
  cases waits : i.waitsFor.bind s.outstanding with
  | some g =>
    obtain ⟨agent, own, found⟩ := Option.bind_eq_some_iff.1 waits
    have barred : s.admitsTransfer g.transfer = false := by simpa [waits] using stuck
    have ne : g ≠ f := by
      rintro rfl
      simp [admitted] at barred
    have foundStill : (s.served f).outstanding agent = some g := find?_erase_of_ne found ne
    simp [own, foundStill, barred]
  | none =>
    have waitsStill : i.waitsFor.bind (s.served f).outstanding = none := by
      cases own : i.waitsFor with
      | none => rfl
      | some agent =>
        rw [own] at waits
        exact State.outstanding_of_idle fun g hg => State.outstanding_none waits g (List.mem_of_mem_erase hg)
    simp only [waits] at stuck
    simp only [waitsStill]
    exact State.accessStuck_served f stuck

theorem State.nextMove_served {s : State} {f : Flight} (admitted : s.admitsTransfer f.transfer = true)
    (noMove : s.nextMove = none) : (s.served f).nextMove = none :=
  State.firstMove_eq_none_of_moveStuck (fun _ => State.moveStuck_served admitted) noMove

/-- The requests in flight over admitted memory, oldest first (20_memory.md R47). -/
def State.ableFlights (s : State) : List Flight := s.flights.filter fun f => s.admitsTransfer f.transfer

/-- The requests in flight that are stuck, oldest first (20_memory.md R47). -/
def State.stuckFlights (s : State) : List Flight := s.flights.filter fun f => !s.admitsTransfer f.transfer

/-- The oldest request that is not stuck stands in flight behind stuck ones. -/
theorem State.ableFlights_eq_cons {s : State} {f : Flight} {rest : List Flight} (able : s.ableFlights = f :: rest) :
    s.oldestAdmitted = some f ∧ (s.served f).ableFlights = rest ∧ (s.served f).stuckFlights = s.stuckFlights := by
  obtain ⟨before, after, split, barred, admitted, others⟩ := List.filter_eq_cons_iff.1 able
  have erased : (s.served f).flights = before ++ after := by
    rw [State.served_flights, split, List.erase_append_right _ fun hf => barred f hf admitted, List.erase_cons_head]
  refine ⟨?_, ?_, ?_⟩
  · exact List.find?_eq_some_iff_append.2 ⟨admitted, before, after, split, fun g hg => by simpa using barred g hg⟩
  · simp only [State.ableFlights, erased, State.served_admitsTransfer, List.filter_append, others]
    rw [List.filter_eq_nil_iff.2 barred, List.nil_append]
  · rw [State.stuckFlights, State.stuckFlights, erased, split]
    simp [admitted]

theorem State.oldestAdmitted_eq_some {s : State} {f : Flight} (oldest : s.oldestAdmitted = some f) :
    f ∈ s.flights ∧ s.admitsTransfer f.transfer = true :=
  ⟨List.mem_of_find?_eq_some oldest, List.find?_some (p := fun f : Flight => s.admitsTransfer f.transfer) oldest⟩

theorem step_serves {s : State} {f : Flight} (unfaulted : s.recordedFault = none) (noMove : s.nextMove = none)
    (oldest : s.oldestAdmitted = some f) : step s = .next (s.served f) := by
  obtain ⟨flying, admitted⟩ := State.oldestAdmitted_eq_some oldest
  rw [step_of_noMove unfaulted noMove, serveOldest, oldest]
  exact completeFlight_of_admits flying admitted

/-- As many steps as there are requests over admitted memory answer them in their order, and no other. -/
theorem run_serves_ableFlights {s : State} (unfaulted : s.recordedFault = none) (noMove : s.nextMove = none)
    {able : List Flight} (isAble : s.ableFlights = able) :
    ∃ t : State, Host.Core.run Sys2Proof.core able.length s = .next t ∧ t.flights = s.stuckFlights ∧
      t.responses = (able.map fun f => (⟨f.requester, 0, 0⟩ : Response)).reverse ++ s.responses := by
  induction able generalizing s with
  | nil =>
    refine ⟨s, rfl, (List.filter_eq_self.2 fun f hf => ?_).symm, rfl⟩
    simpa using List.filter_eq_nil_iff.1 isAble f hf
  | cons f rest ih =>
    obtain ⟨oldest, restAble, sameStuck⟩ := State.ableFlights_eq_cons isAble
    have noMoveStill := State.nextMove_served (State.oldestAdmitted_eq_some oldest).2 noMove
    obtain ⟨t, ran, flights, responses⟩ := ih (s := s.served f) unfaulted noMoveStill restAble
    refine ⟨t, (run_of_step _ (step_serves unfaulted noMove oldest)).trans ran, flights.trans sameStuck, ?_⟩
    simp [responses]

/-- Settles O43: each step answers the oldest request that is not stuck, and lets no move happen. -/
theorem everyRequestInFlightIsAnswered : Obligations.EveryRequestInFlightIsAnswered :=
  fun _ unfaulted noMove => run_serves_ableFlights unfaulted noMove rfl

end Sys2Proof.Machine

/-! ## A host access to a buffer in flight -/

namespace Sys2Proof.Machine

/-- A write that touches what a request in flight reads or writes is a race (20_memory.md R51). -/
theorem State.writeRaces_of_contains {s : State} {f : Flight} {r : Span} {a : Nat} (flying : f ∈ s.flights)
    (touched : r.contains a = true) (shared : f.transfer.srcRead.contains a ∨ f.transfer.dstWritten.contains a) :
    s.writeRaces r = true :=
  List.any_eq_true.2 ⟨f, flying, Bool.or_eq_true_iff.2 (shared.imp
    (Span.overlaps_of_contains · touched) (Span.overlaps_of_contains · touched))⟩

/-- A read that touches what a request in flight writes is a race (20_memory.md R51). -/
theorem State.readRaces_of_contains {s : State} {f : Flight} {r : Span} {a : Nat} (flying : f ∈ s.flights)
    (touched : r.contains a = true) (shared : f.transfer.dstWritten.contains a = true) : s.readRaces r = true :=
  List.any_eq_true.2 ⟨f, flying, Span.overlaps_of_contains shared touched⟩

theorem hostAccess_of_race {r : Span} {races : Bool} {s : State} (done : State)
    (fits : r.base + r.size ≤ s.params.addrLimit) (race : races = true) :
    hostAccess r races done s = .fault .bufferRace := by
  rw [hostAccess, if_neg (not_not.2 (Span.fits_iff.2 fits)), if_pos race]

/-- Settles O44: an access that races is not stuck, so it is taken, and the race stops it. -/
theorem accessToAnInFlightBufferIsARace : Obligations.AccessToAnInFlightBufferIsARace := by
  intro s f agent addr a bytes len later unfaulted flying idle
  have waitsForNone : s.outstanding agent = none := State.outstanding_of_idle idle
  refine ⟨fun input fits touched shared => ?_, fun input fits touched shared => ?_⟩
  · have race := State.writeRaces_of_contains (r := ⟨addr, bytes.length⟩) flying (Span.contains_iff.2 touched) shared
    have taken := step_takes unfaulted input waitsForNone (by simp [State.accessStuck, race])
    rw [taken, takeInput, hostAccess_of_race _ fits race]
  · have race := State.readRaces_of_contains (r := ⟨addr, len⟩) flying (Span.contains_iff.2 touched) shared
    have taken := step_takes unfaulted input waitsForNone (by simp [State.accessStuck, race])
    rw [taken, takeInput, hostAccess_of_race _ fits race]

end Sys2Proof.Machine

/-! ## Reset of the block -/

namespace Sys2Proof.Machine

/-- A reset waits for nobody's response and is never stuck (70_reset_and_hazards.md R160). -/
theorem step_resetBlock {s : State} {later : List Input} (unfaulted : s.recordedFault = none)
    (input : s.inputs = .resetBlock :: later) : step s = .next (State.resetBlock { s with inputs := later }) :=
  step_takes unfaulted input rfl rfl

theorem State.resetBlock_of_noFlights {s : State} (noFlights : s.flights = []) : s.resetBlock = s := by
  obtain ⟨params, mem, unadmitted, cap, requester, flights, inputs, responses, freeDraws, recordedFault⟩ := s
  cases noFlights
  rfl

/-- Settles O46: with nothing in flight there is nothing to abandon, and a reset leaves nothing in flight. -/
theorem resetChangesNoState : Obligations.ResetChangesNoState := by
  intro s later unfaulted input
  refine ⟨fun noFlights => ?_, _, step_resetBlock unfaulted input, State.resetBlock_flights _⟩
  rw [step_resetBlock unfaulted input, State.resetBlock_of_noFlights (s := { s with inputs := later }) noFlights]

end Sys2Proof.Machine

/-! ## What a reset leaves in the buffers in flight -/

namespace Sys2Proof.Machine

/-- Byte `x` of a run of free bytes is the draw that is as far from the first as `x` is from the run's start. -/
theorem Memory.readByte_writeFree_inside {m : Memory} (hw : m.wf) {a x : Nat} (k : Nat) {n : Nat} (low : a ≤ x)
    (high : x < a + n) : (m.writeFree a k n).readByte x = Config.freeByte (k + (x - a)) := by
  induction n generalizing m a k with
  | zero => omega
  | succ n ih =>
    rw [Memory.writeFree]
    rcases Nat.eq_or_lt_of_le low with rfl | above
    · rw [Memory.readByte_writeFree_outside _ _ _ (by omega), Memory.readByte_writeByte_eq hw, Nat.sub_self,
        Nat.add_zero]
    · rw [ih (Memory.writeByte_wf hw a _) (k + 1) above (by omega), show k + 1 + (x - (a + 1)) = k + (x - a) by omega]

/-- `a` is a byte that one of these requests writes (20_memory.md R49). -/
def Flight.AnyWrites (fs : List Flight) (a : Nat) : Prop := ∃ f ∈ fs, f.transfer.dstWritten.contains a = true

theorem Flight.anyWrites_cons {f : Flight} {fs : List Flight} {a : Nat} :
    Flight.AnyWrites (f :: fs) a ↔ f.transfer.dstWritten.contains a = true ∨ Flight.AnyWrites fs a :=
  List.exists_mem_cons_iff ..

/-- The number of the draw that byte `a` takes where these requests are abandoned in order, the first draw being number
`k` (log 10). -/
def abandonDraw : List Flight → Nat → Nat → Nat
  | [], k, _ => k
  | f :: fs, k, a =>
    if f.transfer.dstWritten.contains a then k + (a - f.transfer.dstWritten.base)
    else abandonDraw fs (k + f.transfer.dstWritten.size) a

theorem abandonDraw_of_contains {f : Flight} (fs : List Flight) (k : Nat) {a : Nat}
    (inside : f.transfer.dstWritten.contains a = true) :
    abandonDraw (f :: fs) k a = k + (a - f.transfer.dstWritten.base) := if_pos inside

theorem abandonDraw_of_not_contains {f : Flight} (fs : List Flight) (k : Nat) {a : Nat}
    (outside : ¬ f.transfer.dstWritten.contains a = true) :
    abandonDraw (f :: fs) k a = abandonDraw fs (k + f.transfer.dstWritten.size) a := if_neg outside

theorem le_abandonDraw (fs : List Flight) (k a : Nat) : k ≤ abandonDraw fs k a := by
  induction fs generalizing k with
  | nil => exact le_rfl
  | cons f fs ih =>
    by_cases inside : f.transfer.dstWritten.contains a = true
    · rw [abandonDraw_of_contains fs k inside]
      exact Nat.le_add_right ..
    · rw [abandonDraw_of_not_contains fs k inside]
      exact (Nat.le_add_right ..).trans (ih _)

/-- No two bytes take the same draw. -/
theorem abandonDraw_injective {fs : List Flight} {k a b : Nat} (hasA : Flight.AnyWrites fs a)
    (hasB : Flight.AnyWrites fs b) (same : abandonDraw fs k a = abandonDraw fs k b) : a = b := by
  induction fs generalizing k with
  | nil => obtain ⟨_, hf, _⟩ := hasA; cases hf
  | cons f fs ih =>
    have later := le_abandonDraw fs (k + f.transfer.dstWritten.size)
    by_cases inA : f.transfer.dstWritten.contains a = true <;> by_cases inB : f.transfer.dstWritten.contains b = true
    · rw [abandonDraw_of_contains fs k inA, abandonDraw_of_contains fs k inB] at same
      rw [Span.contains_iff] at inA inB
      omega
    · rw [abandonDraw_of_contains fs k inA, abandonDraw_of_not_contains fs k inB] at same
      rw [Span.contains_iff] at inA
      have := later b
      omega
    · rw [abandonDraw_of_not_contains fs k inA, abandonDraw_of_contains fs k inB] at same
      rw [Span.contains_iff] at inB
      have := later a
      omega
    · rw [abandonDraw_of_not_contains fs k inA, abandonDraw_of_not_contains fs k inB] at same
      exact ih ((Flight.anyWrites_cons.1 hasA).resolve_left inA) ((Flight.anyWrites_cons.1 hasB).resolve_left inB) same

theorem State.freeDraws_le_foldl_abandon (fs : List Flight) (s : State) :
    s.freeDraws ≤ (fs.foldl State.abandon s).freeDraws := by
  induction fs generalizing s with
  | nil => exact le_rfl
  | cons f fs ih => exact (Nat.le_add_right ..).trans (ih (s.abandon f))

/-- The draws that a reset counts include every draw that it takes. -/
theorem abandonDraw_lt_foldl_abandon {fs : List Flight} {s : State} {a : Nat} (has : Flight.AnyWrites fs a) :
    abandonDraw fs s.freeDraws a < (fs.foldl State.abandon s).freeDraws := by
  induction fs generalizing s with
  | nil => obtain ⟨_, hf, _⟩ := has; cases hf
  | cons f fs ih =>
    by_cases inside : f.transfer.dstWritten.contains a = true
    · have counted := State.freeDraws_le_foldl_abandon fs (s.abandon f)
      rw [abandonDraw_of_contains fs _ inside, List.foldl_cons]
      rw [Span.contains_iff] at inside
      rw [State.abandon_freeDraws] at counted
      omega
    · rw [abandonDraw_of_not_contains fs _ inside]
      exact ih (s := s.abandon f) ((Flight.anyWrites_cons.1 has).resolve_left inside)

/-- A byte that none of the abandoned requests writes keeps its value. -/
theorem State.readByte_foldl_abandon_outside {fs : List Flight} {s : State} {a : Nat}
    (outside : ∀ f ∈ fs, f.transfer.dstWritten.contains a = false) :
    (fs.foldl State.abandon s).mem.readByte a = s.mem.readByte a := by
  induction fs generalizing s with
  | nil => rfl
  | cons f fs ih =>
    obtain ⟨first, others⟩ := List.forall_mem_cons.1 outside
    rw [List.foldl_cons, ih others]
    exact (Memory.writeFree_changesOnly ..).readByte_of_not_contains (Bool.eq_false_iff.1 first)

/-- Where the destination prefixes lie apart, each of their bytes holds its draw (70_reset_and_hazards.md R161). -/
theorem State.readByte_foldl_abandon_inside {fs : List Flight} {s : State} {a : Nat} (canonical : s.mem.wf)
    (apart : fs.Pairwise fun f g => f.transfer.dstWritten.overlaps g.transfer.dstWritten = false)
    (has : Flight.AnyWrites fs a) :
    (fs.foldl State.abandon s).mem.readByte a = Config.freeByte (abandonDraw fs s.freeDraws a) := by
  induction fs generalizing s with
  | nil => obtain ⟨_, hf, _⟩ := has; cases hf
  | cons f fs ih =>
    obtain ⟨first, others⟩ := List.pairwise_cons.1 apart
    rw [List.foldl_cons]
    by_cases inside : f.transfer.dstWritten.contains a = true
    · have outside : ∀ g ∈ fs, g.transfer.dstWritten.contains a = false := fun g hg =>
        Bool.eq_false_iff.2 fun shared => Bool.eq_false_iff.1 (first g hg) (Span.overlaps_of_contains inside shared)
      obtain ⟨low, high⟩ := Span.contains_iff.1 inside
      rw [State.readByte_foldl_abandon_outside outside, abandonDraw_of_contains fs _ inside]
      exact Memory.readByte_writeFree_inside canonical s.freeDraws low high
    · rw [abandonDraw_of_not_contains fs _ inside]
      exact ih (s := s.abandon f) (Memory.writeFree_wf canonical ..) others
        ((Flight.anyWrites_cons.1 has).resolve_left inside)

/-- The destination prefixes of the requests in flight lie apart (20_memory.md R51). -/
theorem State.Inv.destinations_apart {s : State} (inv : s.Inv) :
    s.flights.Pairwise fun f g => f.transfer.dstWritten.overlaps g.transfer.dstWritten = false :=
  inv.compatible.imp fun apart => (Transfer.buffers_apart_of_conflicts_eq_false apart.2).2

/-- Settles O47: the requests in flight are abandoned one after the other, and since their destination prefixes lie
apart none undoes the draws of another. -/
theorem resetAbandonsRequestsInFlight : Obligations.ResetAbandonsRequestsInFlight := by
  intro s later inv unfaulted input
  refine ⟨_, step_resetBlock unfaulted input, State.resetBlock_flights _, State.resetBlock_responses _,
    fun a => State.readByte_foldl_abandon_outside, abandonDraw s.flights s.freeDraws,
    fun f flying a inside => ⟨?_, le_abandonDraw .., ?_⟩,
    fun f hf g hg a b inA inB => abandonDraw_injective ⟨f, hf, inA⟩ ⟨g, hg, inB⟩⟩
  · exact State.readByte_foldl_abandon_inside (s := { s with inputs := later }) inv.canonical inv.destinations_apart
      ⟨f, flying, inside⟩
  · exact abandonDraw_lt_foldl_abandon (s := { s with inputs := later }) ⟨f, flying, inside⟩

end Sys2Proof.Machine
